-- ==== Sys2Proof/Word.lean ====
section
/-! DEFINITION. The value types of the core (spec/00_scope.md R10: every value is an unsigned integer of a stated width). -/

namespace Sys2Proof

/-- A 4-bit value: a register, the accumulator, one bus transfer (R5, R10). -/
abbrev Nibble := BitVec 4

/-- An 8-bit value: an instruction word, a byte of program memory (R5, R10). -/
abbrev Byte := BitVec 8

/-- A 12-bit value: a program memory address, the program counter, a call stack entry (R5). -/
abbrev Addr := BitVec 12

/-- A general register number, 0..15 (R14). -/
abbrev RegIx := Fin 16

/-- A register pair number, 0..7 (R15). -/
abbrev PairIx := Fin 8

end Sys2Proof
end

