-- ==== Sys2Proof/Syntax.lean ====
section
/-! DEFINITION. The instructions: one constructor per row of spec/opcode_table.json (spec/30_encoding.md R66). Every operand
has exactly the width of its field, and the bits an instruction ignores are kept as an operand, so that an instruction
stands for exactly one encoding. -/

namespace Sys2Proof

inductive Instr where
  /-- `0000 xxxx` (R100). -/
  | nop (x : Nibble)
  /-- `0001 cccc`, `aaaa aaaa` (R114). -/
  | jcn (cond : Nibble) (a8 : Byte)
  /-- `0010 pppx`, `dddd dddd` (R109); `x` is ignored (R68). -/
  | fim (p : PairIx) (x : BitVec 1) (d8 : Byte)
  /-- `0011 ppp0` (R110). -/
  | fin (p : PairIx)
  /-- `0011 ppp1` (R115). -/
  | jin (p : PairIx)
  /-- `0100 aaaa`, `aaaa aaaa` (R116). -/
  | jun (a12 : Addr)
  /-- `0101 aaaa`, `aaaa aaaa` (R117). -/
  | jms (a12 : Addr)
  /-- `0110 rrrr` (R111). -/
  | inc (reg : RegIx)
  /-- `0111 rrrr`, `aaaa aaaa` (R112). -/
  | isz (reg : RegIx) (a8 : Byte)
  /-- `1000 xxxx` (R101). -/
  | rsv8 (x : Nibble)
  /-- `1001 xxxx` (R102). -/
  | rsv9 (x : Nibble)
  /-- `1010 xxxx` (R103). -/
  | rsva (x : Nibble)
  /-- `1011 xxxx` (R104). -/
  | rsvb (x : Nibble)
  /-- `1100 xxxx` (R105). -/
  | rsvc (x : Nibble)
  /-- `1101 xxxx` (R106). -/
  | rsvd (x : Nibble)
  /-- `1110 xxxx` (R107). -/
  | rsve (x : Nibble)
  /-- `1111 xxxx` (R108). -/
  | rsvf (x : Nibble)
deriving DecidableEq, Repr

/-- The length of an instruction in words (R64): JCN, FIM, JUN, JMS and ISZ are wide. -/
def Instr.words : Instr → Nat
  | .nop _ => 1
  | .jcn _ _ => 2
  | .fim _ _ _ => 2
  | .fin _ => 1
  | .jin _ => 1
  | .jun _ => 2
  | .jms _ => 2
  | .inc _ => 1
  | .isz _ _ => 2
  | .rsv8 _ => 1
  | .rsv9 _ => 1
  | .rsva _ => 1
  | .rsvb _ => 1
  | .rsvc _ => 1
  | .rsvd _ => 1
  | .rsve _ => 1
  | .rsvf _ => 1

end Sys2Proof
end

