-- ==== Sys2Proof/WellFormed.lean ====
section
/-! DEFINITION. Well-formedness of instructions. The hardware has no illegal encoding (spec/30_encoding.md R71) and every
operand type of `Instr` has exactly the width of its field, so the hardware puts NO condition on an instruction: an operand
out of range cannot be written, and statements about decoding hold of every `Instr`. What the spec does restrict is what its
assembler emits (R74): ignored bits are zero there. That is the check of this file. -/

namespace Sys2Proof

/-- The form the spec's assembler emits (R74): NOP is 0x00 and FIM has an even OPA1. RSVk keeps its operand. The hardware
runs the other forms too (R68, R69). -/
def Instr.assemblerForm : Instr → Bool
  | .nop x => x == 0#4
  | .jcn _ _ => true
  | .fim _ x _ => x == 0#1
  | .fin _ => true
  | .jin _ => true
  | .jun _ => true
  | .jms _ => true
  | .inc _ => true
  | .isz _ _ => true
  | .rsv8 _ => true
  | .rsv9 _ => true
  | .rsva _ => true
  | .rsvb _ => true
  | .rsvc _ => true
  | .rsvd _ => true
  | .rsve _ => true
  | .rsvf _ => true

end Sys2Proof
end

