-- ==== Sys2Proof/Decode.lean ====
section
/-! DEFINITION. Decoding and encoding (spec/30_encoding.md), written from R61 to R68, and the opcode table as data (R76). -/

namespace Sys2Proof

/-! ### Fields of a word -/

/-- OPR, the high nibble of a word (R61). -/
def hiNibble (b : Byte) : Nibble := b.extractLsb' 4 4

/-- OPA, the low nibble of a word (R61). -/
def loNibble (b : Byte) : Nibble := b.extractLsb' 0 4

/-- `hi ++ lo` (R10). -/
def joinNibbles (hi lo : Nibble) : Byte := hi ++ lo

/-- `pair = OPA >> 1 = OPA[3:1]` (R65). -/
def pairOfOpa (opa : Nibble) : PairIx := (opa.extractLsb' 1 3).toFin

/-- `OPA[0]`: it tells JIN from FIN (R67) and is ignored by FIM (R68). -/
def lowBit (opa : Nibble) : BitVec 1 := opa.extractLsb' 0 1

/-- `reg = OPA` (R65). -/
def regOfOpa (opa : Nibble) : RegIx := opa.toFin

/-- The 12-bit target of JUN and JMS, `OPA1 ++ OPR2 ++ OPA2` (R65). -/
def joinAddr (top : Nibble) (low : Byte) : Addr := top ++ low

/-- Bits 11..8 of an address: the bank (R38), and the nibble JUN and JMS carry in OPA1 (R63). -/
def addrTop (a : Addr) : Nibble := a.extractLsb' 8 4

/-- Bits 7..0 of an address: the in-page offset (R38). -/
def addrLow (a : Addr) : Byte := a.extractLsb' 0 8

/-! ### Decoding -/

/-- The OPR values of wide first words (R64, R82). -/
def isWideOpr (opr : Nibble) : Bool :=
  opr == 0x1#4 || opr == 0x2#4 || opr == 0x4#4 || opr == 0x5#4 || opr == 0x7#4

/-- The single-word instruction of a first word (R66, R83); none for the five wide OPR values. -/
def decodeSingle (opr opa : Nibble) : Option Instr :=
  match opr with
  | 0x0#4 => some (.nop opa)
  | 0x3#4 => if lowBit opa = 1#1 then some (.jin (pairOfOpa opa)) else some (.fin (pairOfOpa opa))
  | 0x6#4 => some (.inc (regOfOpa opa))
  | 0x8#4 => some (.rsv8 opa)
  | 0x9#4 => some (.rsv9 opa)
  | 0xA#4 => some (.rsva opa)
  | 0xB#4 => some (.rsvb opa)
  | 0xC#4 => some (.rsvc opa)
  | 0xD#4 => some (.rsvd opa)
  | 0xE#4 => some (.rsve opa)
  | 0xF#4 => some (.rsvf opa)
  | _ => none

/-- The wide instruction of a first word `popr, popa` and a second word `opr2, opa2` (R63, R85); none where `popr` is not one
of the five wide OPR values. The second word is data, whatever it holds (R72). -/
def decodeWide (popr popa opr2 opa2 : Nibble) : Option Instr :=
  match popr with
  | 0x1#4 => some (.jcn popa (joinNibbles opr2 opa2))
  | 0x2#4 => some (.fim (pairOfOpa popa) (lowBit popa) (joinNibbles opr2 opa2))
  | 0x4#4 => some (.jun (joinAddr popa (joinNibbles opr2 opa2)))
  | 0x5#4 => some (.jms (joinAddr popa (joinNibbles opr2 opa2)))
  | 0x7#4 => some (.isz (regOfOpa popa) (joinNibbles opr2 opa2))
  | _ => none

/-- Why a list of bytes holds no instruction at its head. No BYTE is illegal (R71): only bytes can be missing. -/
inductive DecodeError where
  /-- The list is empty. -/
  | noWord
  /-- The first word is wide and the list ends after it. -/
  | noSecondWord (first : Byte)
  /-- No row of R66 selects the word; by R71 this never happens (`decode_total`). -/
  | noRow (first : Byte)
deriving DecidableEq, Repr

/-- The instruction at the head of a list of bytes, and the bytes after it (R63, R64). -/
def decode : List Byte → Except DecodeError (Instr × List Byte)
  | [] => .error .noWord
  | w1 :: rest =>
    match decodeSingle (hiNibble w1) (loNibble w1) with
    | some i => .ok (i, rest)
    | none =>
      match rest with
      | [] => .error (.noSecondWord w1)
      | w2 :: rest2 =>
        match decodeWide (hiNibble w1) (loNibble w1) (hiNibble w2) (loNibble w2) with
        | some i => .ok (i, rest2)
        | none => .error (.noRow w1)

/-! ### Encoding -/

/-- `ppp x`: the OPA of FIM, FIN and JIN (R62, R63). -/
def pairNibble (p : PairIx) (x : BitVec 1) : Nibble := (BitVec.ofFin (w := 3) p) ++ x

/-- `rrrr`: the OPA of INC and ISZ (R62, R63). -/
def regNibble (r : RegIx) : Nibble := BitVec.ofFin (w := 4) r

/-- The words of an instruction, first word first (R62, R63, R66). -/
def encode : Instr → List Byte
  | .nop x => [joinNibbles 0x0#4 x]
  | .jcn c a8 => [joinNibbles 0x1#4 c, a8]
  | .fim p x d8 => [joinNibbles 0x2#4 (pairNibble p x), d8]
  | .fin p => [joinNibbles 0x3#4 (pairNibble p 0#1)]
  | .jin p => [joinNibbles 0x3#4 (pairNibble p 1#1)]
  | .jun a => [joinNibbles 0x4#4 (addrTop a), addrLow a]
  | .jms a => [joinNibbles 0x5#4 (addrTop a), addrLow a]
  | .inc r => [joinNibbles 0x6#4 (regNibble r)]
  | .isz r a8 => [joinNibbles 0x7#4 (regNibble r), a8]
  | .rsv8 x => [joinNibbles 0x8#4 x]
  | .rsv9 x => [joinNibbles 0x9#4 x]
  | .rsva x => [joinNibbles 0xA#4 x]
  | .rsvb x => [joinNibbles 0xB#4 x]
  | .rsvc x => [joinNibbles 0xC#4 x]
  | .rsvd x => [joinNibbles 0xD#4 x]
  | .rsve x => [joinNibbles 0xE#4 x]
  | .rsvf x => [joinNibbles 0xF#4 x]

/-! ### The opcode table as data (R76) -/

/-- A row of the opcode table: it selects the first words `w` with `w & mask = bits`. -/
structure OpcodeRow where
  /-- The row's mnemonic. -/
  mnemonic : String
  /-- The bits under the mask. -/
  bits : Byte
  /-- The mask. -/
  mask : Byte
  /-- The number of words. -/
  words : Nat
deriving DecidableEq, Repr

/-- The row selects the first word (R76). -/
def OpcodeRow.selects (r : OpcodeRow) (first : Byte) : Bool := (first &&& r.mask) == r.bits

/-- The 17 rows of R66. -/
def opcodeTable : List OpcodeRow :=
  [⟨"NOP", 0x00#8, 0xF0#8, 1⟩, ⟨"JCN", 0x10#8, 0xF0#8, 2⟩, ⟨"FIM", 0x20#8, 0xF0#8, 2⟩,
   ⟨"FIN", 0x30#8, 0xF1#8, 1⟩, ⟨"JIN", 0x31#8, 0xF1#8, 1⟩, ⟨"JUN", 0x40#8, 0xF0#8, 2⟩] ++
  [⟨"JMS", 0x50#8, 0xF0#8, 2⟩, ⟨"INC", 0x60#8, 0xF0#8, 1⟩, ⟨"ISZ", 0x70#8, 0xF0#8, 2⟩,
   ⟨"RSV8", 0x80#8, 0xF0#8, 1⟩, ⟨"RSV9", 0x90#8, 0xF0#8, 1⟩, ⟨"RSVA", 0xA0#8, 0xF0#8, 1⟩] ++
  [⟨"RSVB", 0xB0#8, 0xF0#8, 1⟩, ⟨"RSVC", 0xC0#8, 0xF0#8, 1⟩, ⟨"RSVD", 0xD0#8, 0xF0#8, 1⟩,
   ⟨"RSVE", 0xE0#8, 0xF0#8, 1⟩, ⟨"RSVF", 0xF0#8, 0xF0#8, 1⟩]

/-- The mnemonic of an instruction's row (R66). -/
def Instr.mnemonic : Instr → String
  | .nop _ => "NOP"
  | .jcn _ _ => "JCN"
  | .fim _ _ _ => "FIM"
  | .fin _ => "FIN"
  | .jin _ => "JIN"
  | .jun _ => "JUN"
  | .jms _ => "JMS"
  | .inc _ => "INC"
  | .isz _ _ => "ISZ"
  | .rsv8 _ => "RSV8"
  | .rsv9 _ => "RSV9"
  | .rsva _ => "RSVA"
  | .rsvb _ => "RSVB"
  | .rsvc _ => "RSVC"
  | .rsvd _ => "RSVD"
  | .rsve _ => "RSVE"
  | .rsvf _ => "RSVF"

/-! ### Words given as one number (log 23)

DESIGN CHOICE, log 23: in the number an outside tool hands to the model, bits 7..0 are the FIRST word and bits 15..8 the
second, so bit 0 is the first word's least significant bit. This is not the order of the 16-bit pattern of R63 and R76,
`OPR1 ++ OPA1 ++ OPR2 ++ OPA2`, which has the first word in its high byte. Each word by itself is numbered as R62 and R63 say;
`decode` and `encode` take lists of words, the first at the head, and depend on no such number. -/

/-- The first word of such a number: its bits 7..0 (DESIGN CHOICE, log 23); bits at and above `nbits` are zero. -/
def tableFirst (nbits w : Nat) : Byte := BitVec.ofNat 8 (w % 2 ^ nbits)

/-- The second word of such a number: its bits 15..8 (DESIGN CHOICE, log 23); bits at and above `nbits` are zero. -/
def tableSecond (nbits w : Nat) : Byte := BitVec.ofNat 8 (w % 2 ^ nbits / 256)

/-- The instruction the decoder reads from the two words of such a number, the first in its low byte (log 23). -/
def decodeTableWord (nbits w : Nat) : Option Instr :=
  match decode [tableFirst nbits w, tableSecond nbits w] with
  | .ok (i, _) => some i
  | .error _ => none

end Sys2Proof
end

