-- ==== Sys2Proof/Config.lean ====
section
/-! DEFINITION. The fixed parameters of the hardware (spec/00_scope.md R5, R7) and the one open parameter that no rule
reads (R6 (c), R153). -/

namespace Sys2Proof.Config

/-- NUM_ROM_BANKS (R5): all 16 banks exist. -/
def numRomBanks : Nat := 16

/-- LAST_BANK (R5), the bank at which the page rule saturates (R92). -/
def lastBank : Nibble := 15#4

/-- The last valid in-page offset (R5). -/
def lastOffset : Byte := 255#8

/-- Bytes of one ROM bank (R5). -/
def romBankSize : Nat := 256

/-- Bytes of the program address space (R5). -/
def addressSpace : Nat := 4096

/-- Entries of the call stack (R5). -/
def callStackDepth : Nat := 3

/-- Duration of stage A in clock cycles (R5). -/
def stageACycles : Nat := 3

/-- Duration of stage M in clock cycles (R5). -/
def stageMCycles : Nat := 2

/-- Duration of stage X in clock cycles (R5). -/
def stageXCycles : Nat := 3

/-- TEST_SET (R7): the test pin is not modelled, always treated as not set; a model must not make it an input. -/
def testSet : Bool := false

/-- A positive clock frequency in hertz, (numPred + 1) / (denPred + 1). -/
structure ClockFrequency where
  /-- The numerator less one. -/
  numPred : Nat
  /-- The denominator less one. -/
  denPred : Nat
deriving DecidableEq, Repr, Inhabited

/-- CLOCK_HZ (R6 (c), R153): an open parameter. Nothing in the model reads it; nothing can be proved about its value. -/
opaque clockHz : ClockFrequency

end Sys2Proof.Config
end

