-- ==== Sys2Proof/Machine/State.lean ====
section
/-! DEFINITION. The state of the core (spec/10_state.md R13), its reset value (R35) and the reasons a step can stop. -/

namespace Sys2Proof.Machine

/-- The three stages of an instruction cycle (R24). -/
inductive Stage where
  /-- Stage A, address out. -/
  | fetchAddr
  /-- Stage M, instruction in. -/
  | fetchInstr
  /-- Stage X, execute. -/
  | execute
deriving DecidableEq, Repr

/-- The wide-instruction latch (R26). -/
structure WideLatch where
  /-- True from the decode of a wide first word to the decode of its second word. -/
  pending : Bool
  /-- OPR of the first word. -/
  opr : Nibble
  /-- OPA of the first word. -/
  opa : Nibble
deriving DecidableEq, Repr

/-- A RAM register: 16 main and 4 status characters of 4 bits (R32; the width is decision D10, log 14). -/
structure RamRegister where
  /-- The main characters. -/
  main : Vector Nibble 16
  /-- The status characters. -/
  status : Vector Nibble 4
deriving DecidableEq, Repr

/-- A RAM chip: 4 registers (R32). -/
abbrev RamChip := Vector RamRegister 4

/-- A RAM bank: 4 chips (R32). -/
abbrev RamBank := Vector RamChip 4

/-- Data RAM: 8 banks (R32, R40). It has no address: the spec defines no way to form one. -/
abbrev Ram := Vector RamBank 8

/-- RAM with every character 0 (R35). -/
def Ram.zero : Ram :=
  Vector.replicate 8 (Vector.replicate 4 (Vector.replicate 4
    { main := Vector.replicate 16 0#4, status := Vector.replicate 4 0#4 }))

/-- Program memory: the bytes that are not 0x00, by strictly rising address. An unlisted address reads 0x00 (R54, R136;
log 10). The canonical form is `Memory.wf` (Machine/Ops.lean). -/
abbrev Memory := List Host.Cell

/-- The complete state (R13), with the two parameters `ROM` and `romSizeBytes` (R6) that are fixed before a run (log 2). -/
@[ext]
structure State where
  /-- `r[0]` .. `r[15]` (R14). -/
  regs : Vector Nibble 16
  /-- The accumulator (R17). -/
  acc : Nibble
  /-- The carry flag (R18). -/
  cy : Bool
  /-- The program counter (R19). -/
  pc : Addr
  /-- The circular call stack (R21). -/
  stack : Vector Addr 3
  /-- The index of the entry the next push writes (R22). -/
  sp : Fin 3
  /-- The instruction register (R23). -/
  ir : Byte
  /-- The stage of the state machine (R24). -/
  stage : Stage
  /-- The cycle index: the position of the next clock step in its instruction cycle (R25). -/
  cycle : Fin 8
  /-- The wide-instruction latch (R26). -/
  wide : WideLatch
  /-- The last nibble driven on the shared data bus (R27, R43). -/
  bus : Nibble
  /-- The address latch of the bus protocol (R28). -/
  addrLatch : Addr
  /-- The parity counter of chip reads: 0 when the next read returns the high nibble (R29). -/
  nibblePhase : BitVec 1
  /-- True once the run has ended (R30). -/
  halted : Bool
  /-- Data RAM (R32). -/
  ram : Ram
  /-- Program memory after loading (R31; a parameter, R6). -/
  rom : Memory
  /-- The loaded program size, 0..4096 (R33; a parameter, R6). -/
  romSizeBytes : Fin 4097
deriving DecidableEq, Repr

/-- Why the machine stops with a fault. -/
inductive Fault where
  /-- BoundsAbort (R119): raised by a chip read (FIN's, or the fetch's) whose latched bank is at or beyond NUM_ROM_BANKS. The
  aborted step changes no state; the information reported is the offending latch. Unreachable with 16 banks (R120). Safe. -/
  | boundsAbort (latch : Addr)
deriving DecidableEq, Repr

/-- Why the model gives a state no step. -/
inductive Refusal where
  /-- An instruction without a meaning yet: raised by an arm of `exec`, never by a meaning. No arm raises it. Safe. -/
  | notModelled (mnemonic : String)
  /-- A clock step on a tuple whose `stage` disagrees with `cycle`: raised by `clockStep`. The spec defines no clock step there
  (R36 item 1, U10) and no run reaches such a tuple. Safe. -/
  | stageCycleMismatch
deriving DecidableEq, Repr

/-- The state right after reset (R35), with no image loaded: `romSizeBytes = 0` and nothing in program memory (log 3). -/
def State.reset : State where
  regs := Vector.replicate 16 0#4
  acc := 0#4
  cy := false
  pc := 0#12
  stack := Vector.replicate 3 0#12
  sp := 0
  ir := 0#8
  stage := .fetchAddr
  cycle := 0
  wide := { pending := false, opr := 0#4, opa := 0#4 }
  bus := 0#4
  addrLatch := 0#12
  nibblePhase := 0#1
  halted := false
  ram := Ram.zero
  rom := []
  romSizeBytes := 0

end Sys2Proof.Machine
end

