-- ==== Sys2Proof/Machine/Ops.lean ====
section
/-! DEFINITION. The shared operations over program memory, registers, the bus, the address latch, the program counter, the
call stack and the wide latch; the abort of a run; reset and loading. The pseudocode of spec/00_scope.md R11, one definition
per primitive. -/

namespace Sys2Proof.Machine

/-- Run `f` on what `o` answers, passing a stop on. -/
def andThen {α β φ ρ : Type} (o : Host.Outcome α φ ρ) (f : α → Host.Outcome β φ ρ) : Host.Outcome β φ ρ :=
  match o with
  | .next a => f a
  | .fault r => .fault r
  | .refused r => .refused r

/-! ### Program memory -/

/-- The byte at an address; an unlisted address reads 0x00 (R54, R136). -/
def Memory.get : Memory → Nat → Byte
  | [], _ => 0#8
  | (b, v) :: rest, a => if a = b then v else Memory.get rest a

/-- Write a byte, keeping the canonical form: a byte 0x00 is not listed. Only the loader writes program memory (R53, R59). -/
def Memory.set : Memory → Nat → Byte → Memory
  | [], a, v => if v = 0#8 then [] else [(a, v)]
  | (b, w) :: rest, a, v =>
    if a < b then (if v = 0#8 then (b, w) :: rest else (a, v) :: (b, w) :: rest)
    else if a = b then (if v = 0#8 then rest else (a, v) :: rest)
    else (b, w) :: Memory.set rest a v

/-- Strictly rising addresses at or above `lo`, no listed 0x00, no address at or above 4096 (R54). -/
def Memory.wfFrom : Nat → Memory → Bool
  | _, [] => true
  | lo, (a, v) :: rest => decide (lo ≤ a) && decide (a < Config.addressSpace) && (v != 0#8) && Memory.wfFrom (a + 1) rest

/-- The canonical form of program memory. -/
def Memory.wf (m : Memory) : Bool := Memory.wfFrom 0 m

/-- `ROM[a]` (R6 (a), R11). -/
def romByte (s : State) (a : Addr) : Byte := Memory.get s.rom a.toNat

/-! ### General registers (R14, R15) -/

/-- `r[i]`. -/
def getReg (s : State) (r : RegIx) : Nibble := s.regs.get r

/-- `r[i] <- v`. -/
def setReg (s : State) (r : RegIx) (v : Nibble) : State := { s with regs := s.regs.set r.val v r.isLt }

/-- The even register `r[2p]` of a pair, its high nibble (R15). -/
def evenReg (p : PairIx) : RegIx := ⟨2 * p.val, by omega⟩

/-- The odd register `r[2p+1]` of a pair, its low nibble (R15). -/
def oddReg (p : PairIx) : RegIx := ⟨2 * p.val + 1, by omega⟩

/-- `pair(p) = r[2p] ++ r[2p+1]` (R15). -/
def getPair (s : State) (p : PairIx) : Byte := joinNibbles (getReg s (evenReg p)) (getReg s (oddReg p))

/-- `pair(p) <- b`: the high nibble to the even register, the low nibble to the odd one (R11, R15, R50). -/
def setPair (s : State) (p : PairIx) (b : Byte) : State :=
  setReg (setReg s (evenReg p) (hiNibble b)) (oddReg p) (loNibble b)

/-- The register readback port, `ReadPair(p)` for p in 0..7 (R131). It reads and changes nothing else. -/
def readPair (s : State) (p : PairIx) : Byte := getPair s p

/-! ### Data RAM, as something outside the core may inspect it (R40) -/

/-- A main character. -/
def ramMain (s : State) (bank : Fin 8) (chip reg : Fin 4) (char : Fin 16) : Nibble :=
  (((s.ram.get bank).get chip).get reg).main.get char

/-- A status character. -/
def ramStatus (s : State) (bank : Fin 8) (chip reg : Fin 4) (char : Fin 4) : Nibble :=
  (((s.ram.get bank).get chip).get reg).status.get char

/-! ### The abort of a run (the only failure inside the core: no exception, trap or interrupt exists, R118, R122, R124) -/

/-- `raise BoundsAbort(latch)` (R119): the run ends at once, no state changed, no handler entered. Nothing returns from it
(R125). -/
def boundsAbort {α : Type} (s : State) : Host.Outcome α Fault Refusal := .fault (.boundsAbort s.addrLatch)

/-! ### The bus, the address latch and the memory chips (spec/20_memory.md) -/

/-- Drive the bus with a nibble (R42, R43). -/
def driveBus (s : State) (n : Nibble) : State := { s with bus := n }

/-- `LatchWrite(n)` (R44): the latch moves right by one nibble and takes the new nibble at the top. -/
def latchWrite (s : State) (n : Nibble) : State :=
  { s with addrLatch := (s.addrLatch >>> 4) ||| (n.setWidth 12 <<< 8) }

/-- Nibble `k` of an address, `(a >> (4*k)) & 0xF` (R48, R78). -/
def addrNibble (a : Addr) (k : Nat) : Nibble := (a >>> (4 * k)).setWidth 4

/-- `bus <- n; LatchWrite(bus)`: one address transfer (R42 (a)). -/
def sendAddrNibble (s : State) (a : Addr) (k : Nat) : State :=
  latchWrite (driveBus s (addrNibble a k)) (driveBus s (addrNibble a k)).bus

/-- The nibble a chip read returns: of the latched byte, the high nibble in phase 0 and the low nibble in phase 1 (R45, R49). -/
def chipNibble (s : State) : Nibble :=
  if s.nibblePhase = 0#1 then hiNibble (romByte s s.addrLatch) else loNibble (romByte s s.addrLatch)

/-- `nibblePhase <- 1 - nibblePhase` (R45). -/
def togglePhase (s : State) : State := { s with nibblePhase := 1#1 - s.nibblePhase }

/-- `bus <- ChipReadNibble()` (R42 (b), R45), with the bounds check of R46. -/
def chipReadToBus (s : State) : Host.Outcome State Fault Refusal :=
  if Config.numRomBanks ≤ (addrTop s.addrLatch).toNat then boundsAbort s
  else .next (driveBus (togglePhase s) (chipNibble s))

/-- `MemRead(a, 1)` (R47): three address transfers, then two nibble reads; the byte read and the state after. -/
def memRead (s : State) (a : Addr) : Host.Outcome (Byte × State) Fault Refusal :=
  andThen (chipReadToBus (sendAddrNibble (sendAddrNibble (sendAddrNibble s a 0) a 1) a 2)) fun t =>
    andThen (chipReadToBus t) fun u => .next (joinNibbles t.bus u.bus, u)

/-! ### The program counter and the call stack -/

/-- `pc <- target` (R11). -/
def setPc (s : State) (a : Addr) : State := { s with pc := a }

/-- `PageRuleBank()` (R92): the bank after the current one at offset 255, but never beyond the last bank. -/
def pageRuleBank (s : State) : Nibble :=
  if addrLow s.pc = Config.lastOffset ∧ addrTop s.pc ≠ Config.lastBank then addrTop s.pc + 1#4 else addrTop s.pc

/-- `JumpCommit(t)`: `pc <- (t - 1) mod 4096` (R93). -/
def jumpCommit (s : State) (t : Addr) : State := setPc s (t - 1#12)

/-- `(sp + 1) mod 3` (R94). -/
def nextSp (sp : Fin 3) : Fin 3 := if sp = 2 then 0 else sp + 1

/-- `StackPush(v)` (R94): write the entry at `sp`, then advance `sp` circularly. -/
def stackPush (s : State) (v : Addr) : State :=
  { s with stack := s.stack.set s.sp.val v s.sp.isLt, sp := nextSp s.sp }

/-! ### The wide latch -/

/-- The decode of a wide first word (R84): remember it and do nothing else. -/
def armWide (s : State) (opr opa : Nibble) : State := { s with wide := { pending := true, opr := opr, opa := opa } }

/-- `wide.pending <- false`, the cached nibbles kept (R86). -/
def clearWide (s : State) : State := { s with wide := { s.wide with pending := false } }

/-! ### Reset and loading (spec/70_reset_and_hazards.md) -/

/-- RESET (R134, R35): every component at its reset value; program memory and its size are not touched. -/
def assertReset (s : State) : State := { State.reset with rom := s.rom, romSizeBytes := s.romSizeBytes }

/-- Bytes written one after the other from address `a` on, ignored beyond the address space (R136). -/
def Memory.load : Memory → Nat → List Byte → Memory
  | m, _, [] => m
  | m, a, b :: rest => if a < Config.addressSpace then Memory.load (Memory.set m a b) (a + 1) rest else m

/-- `min(n, 4096)` (R136). -/
def imageSize (image : List Byte) : Fin 4097 := ⟨min image.length 4096, by omega⟩

/-- The loader's contract (R136): the image from address 0, every other byte 0x00, and its size. -/
def loadImage (s : State) (image : List Byte) : State :=
  { s with rom := Memory.load [] 0 image, romSizeBytes := imageSize image }

/-- The state in which a run of an image starts (R99): loaded and reset. -/
def startOf (image : List Byte) : State := assertReset (loadImage State.reset image)

end Sys2Proof.Machine
end

