-- ==== Sys2Proof/Machine/Flags.lean ====
section
/-! DEFINITION. The one computation over the flags: the condition of JCN (spec/44_control_transfer.md R113). No instruction
WRITES the accumulator or the carry flag (spec/10_state.md R17, R18), so there is no flag update. -/

namespace Sys2Proof.Machine

/-- The condition before inversion: bit 2 enables "accumulator zero", bit 1 "carry set", bit 0 the test pin, a constant (R113,
R7). -/
def jcnBase (s : State) (cond : Nibble) : Bool :=
  (cond.getLsbD 2 && (s.acc == 0#4)) || (cond.getLsbD 1 && s.cy) || (cond.getLsbD 0 && Config.testSet)

/-- `JcnTaken(cond)`: bit 3 inverts (R113). -/
def jcnTaken (s : State) (cond : Nibble) : Bool := if cond.getLsbD 3 then !jcnBase s cond else jcnBase s cond

end Sys2Proof.Machine
end

