-- ==== Sys2Proof/Machine/Operands.lean ====
section
/-! DEFINITION. The operands an instruction forms from the state at its decode step (spec/30_encoding.md R65). The operands
that come from the words alone are formed by the decoder (Decode.lean). -/

namespace Sys2Proof.Machine

/-- The 12-bit target of JCN and ISZ: `PageRuleBank() ++ a8` (R65). -/
def inPageTarget (s : State) (a8 : Byte) : Addr := joinAddr (pageRuleBank s) a8

/-- The 12-bit target of JIN: `PageRuleBank() ++ pair(p)` (R65, R115). -/
def jinTarget (s : State) (p : PairIx) : Addr := joinAddr (pageRuleBank s) (getPair s p)

/-- The 12-bit data address of FIN: `addrLatch[11:8] ++ pair(0)` (R65, R110): the latched chip, no page rule. -/
def finAddress (s : State) : Addr := joinAddr (addrTop s.addrLatch) (getPair s 0)

/-- `(r[reg] + 1) mod 16`, the result of INC and ISZ (R111, R112). -/
def incremented (s : State) (r : RegIx) : Nibble := getReg s r + 1#4

end Sys2Proof.Machine
end

