-- ==== Sys2Proof/Machine/ControlTransfer.lean ====
section
/-! DEFINITION. Control transfer: JCN, JIN, JUN, JMS (spec/44_control_transfer.md). A meaning is the effect of the decode step;
the post-increment that lands a jump on its target is Machine/Cycle.lean's. -/

namespace Sys2Proof.Machine

/-- JCN (R114): if the condition of R113 holds, commit the in-page target. -/
def execJcn (cond : Nibble) (a8 : Byte) (s : State) : Host.Outcome State Fault Refusal :=
  if jcnTaken s cond then .next (jumpCommit s (inPageTarget s a8)) else .next s

/-- JIN (R115): the target itself goes into `pc`, with no compensation, so execution goes on at the byte after it (R139). -/
def execJin (p : PairIx) (s : State) : Host.Outcome State Fault Refusal := .next (setPc s (jinTarget s p))

/-- JUN (R116). -/
def execJun (a12 : Addr) (s : State) : Host.Outcome State Fault Refusal := .next (jumpCommit s a12)

/-- JMS (R117): push `pc`, the address of the second word, then behave as JUN. -/
def execJms (a12 : Addr) (s : State) : Host.Outcome State Fault Refusal := .next (jumpCommit (stackPush s s.pc) a12)

end Sys2Proof.Machine
end

