-- ==== Sys2Proof/Machine/NoEffect.lean ====
section
/-! DEFINITION. NOP and the unimplemented opcodes 0x8 to 0xF (spec/41_nop_and_unimplemented.md). A meaning is the effect of the
decode step (clock cycle 5); the fetch and the post-increment around it are Machine/Cycle.lean's. -/

namespace Sys2Proof.Machine

/-- The decode step changes nothing (R70, R100). -/
def noEffect (s : State) : Host.Outcome State Fault Refusal := .next s

/-- NOP (R100); OPA is ignored (R69). -/
def execNop (_x : Nibble) (s : State) : Host.Outcome State Fault Refusal := noEffect s

/-- RSV8 (R101). -/
def execRsv8 (_x : Nibble) (s : State) : Host.Outcome State Fault Refusal := noEffect s

/-- RSV9 (R102). -/
def execRsv9 (_x : Nibble) (s : State) : Host.Outcome State Fault Refusal := noEffect s

/-- RSVA (R103). -/
def execRsva (_x : Nibble) (s : State) : Host.Outcome State Fault Refusal := noEffect s

/-- RSVB (R104). -/
def execRsvb (_x : Nibble) (s : State) : Host.Outcome State Fault Refusal := noEffect s

/-- RSVC (R105): it does not return; the stack is not read. -/
def execRsvc (_x : Nibble) (s : State) : Host.Outcome State Fault Refusal := noEffect s

/-- RSVD (R106). -/
def execRsvd (_x : Nibble) (s : State) : Host.Outcome State Fault Refusal := noEffect s

/-- RSVE (R107): no RAM character and no port is read or written. -/
def execRsve (_x : Nibble) (s : State) : Host.Outcome State Fault Refusal := noEffect s

/-- RSVF (R108). -/
def execRsvf (_x : Nibble) (s : State) : Host.Outcome State Fault Refusal := noEffect s

end Sys2Proof.Machine
end

