-- ==== Sys2Proof/Machine/RegisterIncrement.lean ====
section
/-! DEFINITION. Register increment: INC and ISZ (spec/43_register_increment.md). A meaning is the effect of the decode step. -/

namespace Sys2Proof.Machine

/-- INC (R111): `r[reg] <- (r[reg] + 1) mod 16`; no flag. -/
def execInc (r : RegIx) (s : State) : Host.Outcome State Fault Refusal := .next (setReg s r (incremented s r))

/-- ISZ (R112): increment, then jump in page if the result is NOT zero (conflict C5 of spec/90_conflicts.md). -/
def execIsz (r : RegIx) (a8 : Byte) (s : State) : Host.Outcome State Fault Refusal :=
  let t := setReg s r (incremented s r)
  if incremented s r = 0#4 then .next t else .next (jumpCommit t (inPageTarget t a8))

end Sys2Proof.Machine
end

