-- ==== Sys2Proof/Machine/RegisterLoad.lean ====
section
/-! DEFINITION. Register-pair loads: FIM and FIN (spec/42_register_load.md). A meaning is the effect of the decode step. -/

namespace Sys2Proof.Machine

/-- FIM (R109): `pair(p) <- d8`. Bit 0 of OPA1 is ignored (R68). -/
def execFim (p : PairIx) (_x : BitVec 1) (d8 : Byte) (s : State) : Host.Outcome State Fault Refusal :=
  .next (setPair s p d8)

/-- FIN (R110): the address from pair 0 and the latched bank, read before any write; one memory read over the bus; then the
byte, high nibble first, into pair `p`. -/
def execFin (p : PairIx) (s : State) : Host.Outcome State Fault Refusal :=
  andThen (memRead s (finAddress s)) fun (b, t) => .next (setPair t p b)

end Sys2Proof.Machine
end

