-- ==== Sys2Proof/Machine/Dispatch.lean ====
section
/-! DEFINITION. The dispatch of instructions to their meanings: one arm per constructor. -/

namespace Sys2Proof.Machine

/-- The effect of an instruction's (completing) decode step (spec/40_instruction_cycle.md R83, R85). -/
def exec (i : Instr) (s : State) : Host.Outcome State Fault Refusal :=
  match i with
  | .nop x => Sys2Proof.Machine.execNop x s
  | .jcn cond a8 => Sys2Proof.Machine.execJcn cond a8 s
  | .fim p x d8 => Sys2Proof.Machine.execFim p x d8 s
  | .fin p => Sys2Proof.Machine.execFin p s
  | .jin p => Sys2Proof.Machine.execJin p s
  | .jun a12 => Sys2Proof.Machine.execJun a12 s
  | .jms a12 => Sys2Proof.Machine.execJms a12 s
  | .inc reg => Sys2Proof.Machine.execInc reg s
  | .isz reg a8 => Sys2Proof.Machine.execIsz reg a8 s
  | .rsv8 x => Sys2Proof.Machine.execRsv8 x s
  | .rsv9 x => Sys2Proof.Machine.execRsv9 x s
  | .rsva x => Sys2Proof.Machine.execRsva x s
  | .rsvb x => Sys2Proof.Machine.execRsvb x s
  | .rsvc x => Sys2Proof.Machine.execRsvc x s
  | .rsvd x => Sys2Proof.Machine.execRsvd x s
  | .rsve x => Sys2Proof.Machine.execRsve x s
  | .rsvf x => Sys2Proof.Machine.execRsvf x s

end Sys2Proof.Machine
end

