-- ==== Sys2Proof/Machine/Cycle.lean ====
section
/-! DEFINITION. The clock step and the instruction cycle (spec/40_instruction_cycle.md R77 to R91): the three stages, the
decoder's dispatch and the two-word protocol, the post-increment and the run-end comparator; then the core run for a number of
clock steps (R99) and run to the end of the current instruction. -/

namespace Sys2Proof.Machine

/-! ### The decoder's dispatch (R82 to R86) -/

/-- `ExecuteSingle` (R83). The five wide OPR values never reach it. -/
def executeSingle (opr opa : Nibble) (s : State) : Host.Outcome State Fault Refusal :=
  match decodeSingle opr opa with
  | some i => exec i s
  | none => .next s

/-- `CompleteWide` (R85); any OPR but the five wide ones (never held in the latch while pending) is no operation. -/
def completeWide (popr popa opr2 opa2 : Nibble) (s : State) : Host.Outcome State Fault Refusal :=
  match decodeWide popr popa opr2 opa2 with
  | some i => exec i s
  | none => .next s

/-- `Decode()` (R82): complete a pending wide instruction, or arm the latch with a wide first word, or execute. -/
def decodeStep (s : State) : Host.Outcome State Fault Refusal :=
  if s.wide.pending then
    andThen (completeWide s.wide.opr s.wide.opa (hiNibble s.ir) (loNibble s.ir) s) fun t => .next (clearWide t)
  else if isWideOpr (hiNibble s.ir) then .next (armWide s (hiNibble s.ir) (loNibble s.ir))
  else executeSingle (hiNibble s.ir) (loNibble s.ir) s

/-! ### The three stages (R78 to R81) -/

/-- The stage a cycle index belongs to (R25, R36 item 1). -/
def stageOfCycle (c : Fin 8) : Stage :=
  if c.val < Config.stageACycles then .fetchAddr
  else if c.val < Config.stageACycles + Config.stageMCycles then .fetchInstr
  else .execute

/-- `cycle <- cycle + 1`, and the stage change after the last cycle of a stage (R78, R79, R80). -/
def advanceCycle (s : State) : State :=
  { s with cycle := s.cycle + 1, stage := stageOfCycle (s.cycle + 1) }

/-- `StepA()` (R78): send one nibble of `pc` to the address latch. -/
def stepA (s : State) : State := advanceCycle (sendAddrNibble s s.pc s.cycle.val)

/-- `ir <- ((ir << 4) | bus)[7:0]` (R79). -/
def shiftIr (s : State) : State := { s with ir := (s.ir <<< 4) ||| s.bus.setWidth 8 }

/-- `StepM()` (R79): read one nibble into the instruction register. -/
def stepM (s : State) : Host.Outcome State Fault Refusal :=
  andThen (chipReadToBus s) fun t => .next (advanceCycle (shiftIr t))

/-- `EndOfInstructionCycle()` (R81): the unconditional post-increment, modulo 4096 (R20). -/
def endOfInstructionCycle (s : State) : State := { s with cycle := 0, pc := s.pc + 1#12, stage := .fetchAddr }

/-- The counting part of `StepX()` (R80). -/
def countX (s : State) : State := if s.cycle = 7 then endOfInstructionCycle s else advanceCycle s

/-- `StepX()` (R80): the decode in the first cycle of the stage only. -/
def stepX (s : State) : Host.Outcome State Fault Refusal :=
  andThen (if s.cycle = 5 then decodeStep s else .next s) fun t => .next (countX t)

/-- The stage work of a clock step (R77). -/
def stageWork (s : State) : Host.Outcome State Fault Refusal :=
  match s.stage with
  | .fetchAddr => .next (stepA s)
  | .fetchInstr => stepM s
  | .execute => stepX s

/-! ### The clock step (R77) -/

/-- `pc >= romSizeBytes` (R87). -/
def pastEnd (s : State) : Bool := decide (s.romSizeBytes.val ≤ s.pc.toNat)

/-- `if pc >= romSizeBytes then halted <- true` (R87). -/
def runEndCheck (s : State) : State := { s with halted := s.halted || pastEnd s }

/-- `ClockStep()` (R77). A halted core does not step (R88). A tuple whose stage disagrees with its cycle has no step (U10). -/
def clockStep (s : State) : Host.Outcome State Fault Refusal :=
  if s.halted then .next s
  else if s.stage = stageOfCycle s.cycle then andThen (stageWork s) fun t => .next (runEndCheck t)
  else .refused .stageCycleMismatch

/-- `n` clock steps (R99). -/
def clockRun : Nat → State → Host.Outcome State Fault Refusal
  | 0, s => .next s
  | n + 1, s => andThen (clockStep s) (clockRun n)

/-! ### To the end of the current instruction (R9 level 3, R97) -/

/-- The state is between two instructions: the next clock step begins one, and no second word is awaited. -/
def atBoundary (s : State) : Bool := decide (s.cycle = 0) && !s.wide.pending

/-- At least one and at most `n` clock steps, to the first state that is halted or between two instructions. -/
def runToBoundary : Nat → State → Host.Outcome State Fault Refusal
  | 0, s => .next s
  | n + 1, s => andThen (clockStep s) fun t => if t.halted || atBoundary t then .next t else runToBoundary n t

/-- The longest instruction takes two instruction cycles, 16 clock steps (R89, R152). -/
def longestInstruction : Nat := 2 * (Config.stageACycles + Config.stageMCycles + Config.stageXCycles)

/-- The core run to the end of the current instruction, or to the end of the run if that comes first (R97, R98). -/
def instructionStep (s : State) : Host.Outcome State Fault Refusal := runToBoundary longestInstruction s

/-! ### Placing an instruction where the next fetch reads it -/

/-- The core about to begin an instruction: stage A, no second word awaited, high nibble next, not halted. -/
def readyToFetch (s : State) : State :=
  { s with stage := .fetchAddr, cycle := 0, wide := { s.wide with pending := false }, nibblePhase := 0#1, halted := false }

/-- A loaded size that covers the two bytes from `pc` on (all of memory where they reach its top). -/
def sizeCovering (s : State) : Fin 4097 :=
  ⟨max s.romSizeBytes.val (min (s.pc.toNat + 2) 4096), by have := s.romSizeBytes.isLt; omega⟩

/-- Two bytes of program memory from `pc` on, modulo 4096, the loaded size covering them, and the core ready to fetch them. -/
def placeAtPc (s : State) (b1 b2 : Byte) : State :=
  { readyToFetch s with
      rom := Memory.set (Memory.set s.rom s.pc.toNat b1) (s.pc + 1#12).toNat b2
      romSizeBytes := sizeCovering s }

end Sys2Proof.Machine
end

