-- ==== Sys2Proof/Machine/Step.lean ====
section
/-! DEFINITION. One step of the machine: one instruction, run clock step by clock step (spec/00_scope.md R9: level 3 made of
level 1, so that the mid-cycle end of a run, spec/40_instruction_cycle.md R98, is kept; log 1). -/

namespace Sys2Proof.Machine

/-- One step: clock steps (R77) to the end of the current instruction, or to the end of the run if that comes first. -/
def step (s : State) : Host.Outcome State Fault Refusal := instructionStep s

/-- The state with a table word's instruction stored where the next step fetches it (log 7): its two bytes, the
first taken from bits 7..0 of `w` and the second from bits 15..8 (log 23), at `pc` and `pc + 1`, the loaded
size covering them, and the core at the beginning of an instruction. -/
def State.withFetchWord (s : State) (nbits w : Nat) : State := placeAtPc s (tableFirst nbits w) (tableSecond nbits w)

end Sys2Proof.Machine
end

