-- ==== Sys2Proof/Safety.lean ====
section
/-! DEFINITION. What a good state and a run are, in the terms the claims use: the invariants of reachable states
(spec/10_state.md R36, and what is needed to make them inductive), the loader's contract (spec/70_reset_and_hazards.md R136), the
net effect of an instruction cycle (spec/40_instruction_cycle.md R96, R97) and the end of a run (R99). -/

namespace Sys2Proof.Machine

/-! ### The invariants the spec lists (R36; item 2 is the type of `sp`) -/

/-- Item 1: the stage is the one the cycle index belongs to. -/
abbrev State.stageAgrees (s : State) : Prop := s.stage = stageOfCycle s.cycle

/-- Item 3: the parity counter is 1 exactly between the two reads of the fetch. -/
abbrev State.phaseAgrees (s : State) : Prop := s.nibblePhase = 1#1 ↔ s.cycle = 4

/-- Item 4: a pending first word is wide. -/
abbrev State.pendingIsWide (s : State) : Prop := s.wide.pending = true → isWideOpr s.wide.opr = true

/-- Item 5: the accumulator, the carry flag and RAM are zero. -/
abbrev State.neverWrittenIsZero (s : State) : Prop := s.acc = 0#4 ∧ s.cy = false ∧ s.ram = Ram.zero

/-- Item 6: a core that has not halted is inside the image, or it is the reset state with an empty image. -/
abbrev State.insideImage (s : State) : Prop :=
  s.halted = false → s.pc.toNat < s.romSizeBytes.val ∨ (s = assertReset s ∧ s.romSizeBytes = 0)

/-- Item 7: after the three address transfers the latch holds `pc`, up to the decode. -/
abbrev State.latchHoldsPc (s : State) : Prop := s.cycle = 3 ∨ s.cycle = 4 ∨ s.cycle = 5 → s.addrLatch = s.pc

/-- The seven items of R36. -/
abbrev State.R36 (s : State) : Prop :=
  s.stageAgrees ∧ s.phaseAgrees ∧ s.pendingIsWide ∧ s.neverWrittenIsZero ∧ s.insideImage ∧ s.latchHoldsPc

/-! ### What makes them inductive -/

/-- The nibbles of `pc` the latch holds while the address goes out (R44, R78). -/
abbrev State.latchFills (s : State) : Prop :=
  (s.cycle = 1 → addrNibble s.addrLatch 2 = addrNibble s.pc 0) ∧
  (s.cycle = 2 → addrNibble s.addrLatch 1 = addrNibble s.pc 0 ∧ addrNibble s.addrLatch 2 = addrNibble s.pc 1)

/-- What the instruction register holds while the byte at `pc` comes in (R79). -/
abbrev State.irFills (s : State) : Prop :=
  (s.cycle = 4 → loNibble s.ir = hiNibble (romByte s s.pc)) ∧ (s.cycle = 5 → s.ir = romByte s s.pc)

/-- Where a pending first word stands: at `pc` until the post-increment after its own decode, and before `pc` from then to the
completing decode (R89, R90). -/
abbrev State.pendingWord (s : State) : Prop :=
  s.wide.pending = true →
    (s.cycle.val ≤ 5 → joinNibbles s.wide.opr s.wide.opa = romByte s (s.pc - 1#12)) ∧
    (6 ≤ s.cycle.val → joinNibbles s.wide.opr s.wide.opa = romByte s s.pc)

/-- The loader's contract (R6, R136): program memory in canonical form, and 0x00 from `romSizeBytes` on. -/
abbrev State.romContract (s : State) : Prop :=
  Memory.wf s.rom = true ∧ ∀ c ∈ s.rom, c.1 < s.romSizeBytes.val

/-- The invariant every clock step keeps. -/
abbrev State.Inv (s : State) : Prop := s.R36 ∧ s.latchFills ∧ s.irFills ∧ s.pendingWord ∧ s.romContract

/-! ### The net effect of an instruction cycle (R96) -/

/-- The core about to perform an instruction cycle whose fetch is inside the image (the premise of R96). -/
abbrev State.ready (s : State) : Prop :=
  s.cycle = 0 ∧ s.stage = .fetchAddr ∧ s.halted = false ∧ s.nibblePhase = 0#1 ∧ s.pc.toNat < s.romSizeBytes.val

/-- After the five fetch steps (R96 item 1). -/
def fetched (s : State) : State :=
  { s with
      addrLatch := s.pc, ir := romByte s s.pc, bus := loNibble (romByte s s.pc), cycle := 5, stage := .execute }

/-- From the state after `Decode()` to the end of the instruction cycle, with both run-end checks (R96 items 2 and 3). -/
def finished (s : State) : State :=
  if pastEnd s then { s with cycle := 6, halted := true }
  else runEndCheck { s with cycle := 0, stage := .fetchAddr, pc := s.pc + 1#12 }

/-- A whole instruction cycle: fetch, `Decode()`, finish (R96). -/
def instructionCycle (s : State) : Host.Outcome State Fault Refusal :=
  andThen (decodeStep (fetched s)) fun t => .next (finished t)

/-- The instruction cycle of a wide first word (R84, R89): it is remembered, and `pc` moves on to the second word. -/
def firstWordDone (s : State) : State :=
  finished (armWide (fetched s) (hiNibble (romByte s s.pc)) (loNibble (romByte s s.pc)))

/-! ### Runs (R99) -/

/-- The run of an image ends in `t` after exactly `n` clock steps: the first halted state (R99). -/
def RunEndsAfter (image : List Byte) (n : Nat) (t : State) : Prop :=
  clockRun n (startOf image) = .next t ∧ t.halted = true ∧
    ∀ k < n, ∀ u, clockRun k (startOf image) = .next u → u.halted = false

end Sys2Proof.Machine
end

