-- ==== Sys2Proof/Certificates/Slice0/Obligations.lean ====
section
/-! DEFINITION. The statements for the provers. Each docstring names the rules of spec/ it formalises and, where a statement
rests on a decision the spec marks as its own (spec/92_eei_decisions.md D<n>) or on a choice of the model (log <n>), says so.
Every statement about a next state names what is unchanged: `t = { s with f := t.f, … }` says that every field of the state but
the named ones is unchanged, program memory, RAM and the flags among them. -/

open Sys2Proof Sys2Proof.Machine

/-! ### Encoding -/

/-- R62, R63, R65, R66: decoding the words of any instruction, with any bytes after them, gives the instruction back. -/
def Obligations.DecodeOfEncodeIsInstruction : Prop :=
  ∀ (i : Instr) (rest : List Byte), decode (encode i ++ rest) = .ok (i, rest)

/-- R66, R71: words that decode to an instruction are exactly its encoding and the bytes left over. It is the model's
choice (log 6) that an instruction keeps the operand bits the hardware ignores; only so does each instruction have ONE
encoding (0x20 and 0x21 are both FIM P0 to the spec, R68, R74, and two instructions here). -/
def Obligations.EncodeOfDecodeIsWords : Prop :=
  ∀ (ws : List Byte) (i : Instr) (rest : List Byte), decode ws = .ok (i, rest) → encode i ++ rest = ws

/-- R71: no illegal encoding and no encoding that traps. Every byte as a first word selects exactly one row of the table
and is a single-word instruction or a wide one; every byte is accepted as the second word of a wide one; and no instruction
stops. -/
def Obligations.EveryByteDecodesAndNoneTraps : Prop :=
  (∀ (w1 : Byte),
    (opcodeTable.filter fun r => r.selects w1).length = 1 ∧
    ((∃ i, i.words = 1 ∧ ∀ rest, decode (w1 :: rest) = .ok (i, rest)) ∨
     (∀ w2, ∃ i, i.words = 2 ∧ ∀ rest, decode (w1 :: w2 :: rest) = .ok (i, rest)))) ∧
  ∀ (i : Instr) (s : State), ∃ t, exec i s = .next t

/-- R64: the OPR of the first word alone decides the length, and it is two words exactly for 1, 2, 4, 5 and 7. -/
def Obligations.LengthIsDecidedByFirstOpr : Prop :=
  ∀ (i : Instr), ∃ w1 tail, encode i = w1 :: tail ∧ tail.length + 1 = i.words ∧
    (i.words = 2 ↔ hiNibble w1 ∈ [0x1#4, 0x2#4, 0x4#4, 0x5#4, 0x7#4])

/-- R66, R76: the decoder gives the instruction of the one row of the opcode table that selects the first word. -/
def Obligations.DecoderFollowsOpcodeTable : Prop :=
  ∀ (w1 : Byte) (tail rest : List Byte) (i : Instr), decode (w1 :: tail) = .ok (i, rest) →
    (opcodeTable.filter fun r => r.selects w1).map (fun r => (r.mnemonic, r.words)) = [(i.mnemonic, i.words)]

/-- R68: OPR 0x2 is FIM for every OPA, a wide one; the pair is OPA shifted right by one, and bit 0 changes nothing. -/
def Obligations.EveryOprTwoIsWideFim : Prop :=
  ∀ (opa : Nibble) (w2 : Byte), ∃ (p : PairIx) (x : BitVec 1), p.val = opa.toNat / 2 ∧
    (∀ rest, decode (joinNibbles 0x2#4 opa :: w2 :: rest) = .ok (.fim p x w2, rest)) ∧
    ∀ (s : State), exec (.fim p x w2) s = exec (.fim p 0#1 w2) s

/-- R66, R67, R68, R74 and the programs of spec/95_test_vectors.md: words written out from the encoding, one a family. -/
def Obligations.ListedWordsDecodeAsListed : Prop :=
  decode [0x0F#8] = .ok (.nop 0xF#4, []) ∧ decode [0x95#8] = .ok (.rsv9 0x5#4, []) ∧
  decode [0x20#8, 0xA1#8] = .ok (.fim 0 0#1 0xA1#8, []) ∧ decode [0x3E#8] = .ok (.fin 7, []) ∧
  decode [0x33#8] = .ok (.jin 1, []) ∧ decode [0x14#8, 0x06#8] = .ok (.jcn 0x4#4 0x06#8, []) ∧
  decode [0x4F#8, 0xFF#8] = .ok (.jun 0xFFF#12, []) ∧ decode [0x52#8, 0x34#8] = .ok (.jms 0x234#12, []) ∧
  decode [0x6F#8] = .ok (.inc 15, []) ∧ decode [0x71#8, 0x02#8] = .ok (.isz 1 0x02#8, [])

/-! ### Registers, bus and memory chips -/

/-- R15: eight pairs over sixteen registers. A pair is its even register (high nibble) and its odd one (low nibble);
writing a pair writes exactly those two; writing either changes the pair. The readback port (R131) reads the same value. -/
def Obligations.PairsAreTheirTwoRegisters : Prop :=
  ∀ (s : State) (p : PairIx) (b : Byte) (v : Nibble),
    (evenReg p).val = 2 * p.val ∧ (oddReg p).val = 2 * p.val + 1 ∧
    hiNibble (getPair s p) = getReg s (evenReg p) ∧ loNibble (getPair s p) = getReg s (oddReg p) ∧
    readPair s p = getPair s p ∧
    getPair (setPair s p b) p = b ∧
    (∀ q, q ≠ evenReg p → q ≠ oddReg p → getReg (setPair s p b) q = getReg s q) ∧
    setPair s p b = { s with regs := (setPair s p b).regs } ∧
    hiNibble (getPair (setReg s (evenReg p) v) p) = v ∧ loNibble (getPair (setReg s (evenReg p) v) p) = getReg s (oddReg p) ∧
    loNibble (getPair (setReg s (oddReg p) v) p) = v ∧ hiNibble (getPair (setReg s (oddReg p) v) p) = getReg s (evenReg p)

/-- R45, R46 (that the parity counter is one bit, toggled by every chip read, is decision D23): a chip read never aborts;
it puts on the bus the high nibble of the latched byte in phase 0 and the low nibble in phase 1, toggles the phase, and
changes nothing else. -/
def Obligations.ChipReadGivesNibbleAndToggles : Prop :=
  ∀ (s : State), ∃ t, chipReadToBus s = .next t ∧
    t = { s with bus := t.bus, nibblePhase := t.nibblePhase } ∧
    (s.nibblePhase = 0#1 → t.bus = hiNibble (romByte s s.addrLatch) ∧ t.nibblePhase = 1#1) ∧
    (s.nibblePhase = 1#1 → t.bus = loNibble (romByte s s.addrLatch) ∧ t.nibblePhase = 0#1)

/-- R47 (with R44, whose shift form is the spec's decision D4; the counter is 0 at entry in every reachable state): a
memory read is the byte at the address; it leaves the address in the latch, the low nibble on the bus and everything else
as it was. With the counter at 1 the two nibbles come the other way round. -/
def Obligations.MemoryReadGivesByteAtAddress : Prop :=
  ∀ (s : State) (a : Addr),
    (s.nibblePhase = 0#1 →
      memRead s a = .next (romByte s a, { s with addrLatch := a, bus := loNibble (romByte s a) })) ∧
    (s.nibblePhase = 1#1 →
      memRead s a = .next (joinNibbles (loNibble (romByte s a)) (hiNibble (romByte s a)),
        { s with addrLatch := a, bus := hiNibble (romByte s a) }))

/-! ### The meaning of each instruction: its decode step answers a next state, its result and its frame -/

/-- R100 to R108 (that 0x8 to 0xF are single words is the spec's decision D16): NOP and the eight unimplemented opcodes,
with any operand, complete and change nothing. -/
def Obligations.NopAndUnimplementedChangeNothing : Prop :=
  ∀ (x : Nibble) (s : State),
    exec (.nop x) s = .next s ∧ exec (.rsv8 x) s = .next s ∧ exec (.rsv9 x) s = .next s ∧ exec (.rsva x) s = .next s ∧
    exec (.rsvb x) s = .next s ∧ exec (.rsvc x) s = .next s ∧ exec (.rsvd x) s = .next s ∧ exec (.rsve x) s = .next s ∧
    exec (.rsvf x) s = .next s

/-- R109: FIM loads the second word into the pair, high nibble in the even register; every other register and every other
piece of state is unchanged. -/
def Obligations.FimLoadsImmediateIntoPair : Prop :=
  ∀ (p : PairIx) (x : BitVec 1) (d8 : Byte) (s : State), ∃ t, exec (.fim p x d8) s = .next t ∧
    getReg t (evenReg p) = hiNibble d8 ∧ getReg t (oddReg p) = loNibble d8 ∧
    (∀ q, q ≠ evenReg p → q ≠ oddReg p → getReg t q = getReg s q) ∧
    (∀ a, romByte t a = romByte s a) ∧ t = { s with regs := t.regs }

/-- R110 (the bank, and that the latch is rewritten, are the spec's decision D5): FIN reads the byte at the latched bank
and pair 0, high nibble into the even register. With the parity counter at 1, which no reachable instruction boundary has,
the same protocol delivers the nibbles the other way round (R45). It leaves the address in the latch and the last nibble on
the bus. -/
def Obligations.FinLoadsIndirectIntoPair : Prop :=
  ∀ (p : PairIx) (s : State), ∃ t, exec (.fin p) s = .next t ∧
    (s.nibblePhase = 0#1 → getPair t p = romByte s (finAddress s) ∧ t.bus = loNibble (romByte s (finAddress s))) ∧
    (s.nibblePhase = 1#1 → getReg t (evenReg p) = loNibble (romByte s (finAddress s)) ∧
      getReg t (oddReg p) = hiNibble (romByte s (finAddress s)) ∧ t.bus = hiNibble (romByte s (finAddress s))) ∧
    addrTop (finAddress s) = addrTop s.addrLatch ∧ addrLow (finAddress s) = joinNibbles (getReg s 0) (getReg s 1) ∧
    t.addrLatch = finAddress s ∧
    (∀ q, q ≠ evenReg p → q ≠ oddReg p → getReg t q = getReg s q) ∧
    (∀ a, romByte t a = romByte s a) ∧ t = { s with regs := t.regs, bus := t.bus, addrLatch := t.addrLatch }

/-- R111: `0110 rrrr` is INC; it adds one to its register modulo 16, so that 0xF wraps to 0x0, and changes nothing else: no
flag, not `pc`, not the stack, not the wide latch. -/
def Obligations.IncAddsOneAndWraps : Prop :=
  ∀ (opa : Nibble) (s : State), ∃ (r : RegIx) (t : State), r.val = opa.toNat ∧ decodeSingle 0x6#4 opa = some (.inc r) ∧
    exec (.inc r) s = .next t ∧
    (getReg t r).toNat = ((getReg s r).toNat + 1) % 16 ∧ (getReg s r = 0xF#4 → getReg t r = 0x0#4) ∧
    (∀ q, q ≠ r → getReg t q = getReg s q) ∧
    (∀ a, romByte t a = romByte s a) ∧ t = { s with regs := t.regs }

/-- R112 with R92, R93 (jump if NOT zero: conflict C5; modulo 4096: decision D3): ISZ adds one to its register; if the
result is not zero it commits the target in the page-rule bank, less one; if it is zero `pc` is unchanged. -/
def Obligations.IszIncrementsAndJumpsIfNotZero : Prop :=
  ∀ (r : RegIx) (a8 : Byte) (s : State), ∃ t, exec (.isz r a8) s = .next t ∧
    (getReg t r).toNat = ((getReg s r).toNat + 1) % 16 ∧
    (getReg s r = 0xF#4 → getReg t r = 0x0#4 ∧ t.pc = s.pc) ∧
    (getReg s r ≠ 0xF#4 → t.pc + 1#12 = joinAddr (pageRuleBank s) a8) ∧
    (∀ q, q ≠ r → getReg t q = getReg s q) ∧
    (∀ a, romByte t a = romByte s a) ∧ t = { s with regs := t.regs, pc := t.pc }

/-- R113 (that bits 2, 1, 0 enable their tests is decision D6; that bit 1 tests carry SET is conflict C4): the whole table
of the condition, for every accumulator and carry. -/
def Obligations.JcnConditionTable : Prop :=
  ∀ (s : State),
    (∀ c ∈ [0x0#4, 0x1#4], jcnTaken s c = false) ∧
    (∀ c ∈ [0x2#4, 0x3#4], jcnTaken s c = true ↔ s.cy = true) ∧
    (∀ c ∈ [0x4#4, 0x5#4], jcnTaken s c = true ↔ s.acc = 0#4) ∧
    (∀ c ∈ [0x6#4, 0x7#4], jcnTaken s c = true ↔ (s.acc = 0#4 ∨ s.cy = true)) ∧
    (∀ c ∈ [0x8#4, 0x9#4], jcnTaken s c = true) ∧
    (∀ c ∈ [0xA#4, 0xB#4], jcnTaken s c = true ↔ s.cy = false) ∧
    (∀ c ∈ [0xC#4, 0xD#4], jcnTaken s c = true ↔ s.acc ≠ 0#4) ∧
    (∀ c ∈ [0xE#4, 0xF#4], jcnTaken s c = true ↔ (s.acc ≠ 0#4 ∧ s.cy = false))

/-- R114 with R92, R93, R113 (decisions D3, D6, D9): JCN completes; taken, it commits the target in the page-rule bank,
less one; not taken, it changes nothing; in both cases everything but `pc` is unchanged. -/
def Obligations.JcnJumpsWhenConditionHolds : Prop :=
  ∀ (cond : Nibble) (a8 : Byte) (s : State), ∃ t, exec (.jcn cond a8) s = .next t ∧
    (jcnTaken s cond = true → t.pc + 1#12 = joinAddr (pageRuleBank s) a8) ∧
    (jcnTaken s cond = false → t.pc = s.pc) ∧
    (∀ a, romByte t a = romByte s a) ∧ t = { s with pc := t.pc }

/-- R115: JIN puts the page-rule bank and its pair into `pc`, with no compensation, and changes nothing else. -/
def Obligations.JinPutsPairIntoPc : Prop :=
  ∀ (p : PairIx) (s : State), ∃ t, exec (.jin p) s = .next t ∧
    addrTop t.pc = pageRuleBank s ∧ addrLow t.pc = joinNibbles (getReg s (evenReg p)) (getReg s (oddReg p)) ∧
    (∀ a, romByte t a = romByte s a) ∧ t = { s with pc := t.pc }

/-- R116 with R93 (modulo 4096: decision D3): JUN commits its 12-bit target, less one, and changes nothing else. -/
def Obligations.JunCommitsTarget : Prop :=
  ∀ (a12 : Addr) (s : State), ∃ t, exec (.jun a12) s = .next t ∧
    t.pc.toNat = (a12.toNat + 4095) % 4096 ∧
    (∀ a, romByte t a = romByte s a) ∧ t = { s with pc := t.pc }

/-- R117 with R94 (decisions D3, D7, D24): JMS writes `pc`, the address of its second word, to the stack entry at `sp`,
leaves the other two entries, advances `sp` modulo 3, and goes on as JUN; nothing else changes. -/
def Obligations.JmsPushesPcAndJumps : Prop :=
  ∀ (a12 : Addr) (s : State), ∃ t, exec (.jms a12) s = .next t ∧
    t.stack.get s.sp = s.pc ∧ (∀ k, k ≠ s.sp → t.stack.get k = s.stack.get k) ∧ t.sp.val = (s.sp.val + 1) % 3 ∧
    t.pc + 1#12 = a12 ∧
    (∀ a, romByte t a = romByte s a) ∧ t = { s with stack := t.stack, sp := t.sp, pc := t.pc }

/-- R92 (that the last bank is 15 whatever the image is decision D9): at offset 255 the next bank, saturating at bank 15;
elsewhere the current bank. -/
def Obligations.PageRuleMovesOnAtOffset255 : Prop :=
  ∀ (s : State),
    (s.pc.toNat % 256 = 255 → s.pc.toNat / 256 < 15 → (pageRuleBank s).toNat = s.pc.toNat / 256 + 1) ∧
    (s.pc.toNat % 256 = 255 → s.pc.toNat / 256 = 15 → (pageRuleBank s).toNat = 15) ∧
    (s.pc.toNat % 256 ≠ 255 → (pageRuleBank s).toNat = s.pc.toNat / 256)

/-- R94 (decision D7): from any stack and `sp`, four pushes leave the last three values, the fourth where the first was;
and three pushes bring `sp` round. -/
def Obligations.FourthPushOverwritesFirst : Prop :=
  ∀ (s : State) (a b c d : Addr),
    (stackPush (stackPush (stackPush s a) b) c).sp = s.sp ∧
    (stackPush (stackPush (stackPush s a) b) c).stack.get s.sp = a ∧
    (stackPush (stackPush (stackPush (stackPush s a) b) c) d).stack.get s.sp = d ∧
    (stackPush (stackPush (stackPush (stackPush s a) b) c) d).stack.get (nextSp s.sp) = b ∧
    (stackPush (stackPush (stackPush (stackPush s a) b) c) d).stack.get (nextSp (nextSp s.sp)) = c

/-! ### Rules over all instructions -/

/-- R17, R18, R23, R29, R30, R53: whatever the instruction, its meaning (the effect R83 and R85 dispatch to) keeps the
accumulator, the carry, the instruction register, the stage and cycle, the wide latch, the parity counter, the halt latch,
RAM and program memory. Registers, `pc`, the stack and `sp`, and (FIN's) bus and address latch may change; that the
completing decode clears the wide latch AFTER the meaning (R82, R86) is SecondWordIsDataAndClearsLatch. -/
def Obligations.ExecKeepsFlagsSequencingAndMemory : Prop :=
  ∀ (i : Instr) (s t : State), exec i s = .next t →
    t = { s with
            regs := t.regs, pc := t.pc, stack := t.stack, sp := t.sp, bus := t.bus, addrLatch := t.addrLatch }

/-- R16: only FIM, FIN, INC and ISZ write a general register, and only the one or two they name. -/
def Obligations.OnlyLoadsAndIncrementsWriteRegisters : Prop :=
  ∀ (i : Instr) (s t : State) (q : RegIx), exec i s = .next t → getReg t q ≠ getReg s q →
    (∃ p x d8, i = .fim p x d8 ∧ (q = evenReg p ∨ q = oddReg p)) ∨ (∃ p, i = .fin p ∧ (q = evenReg p ∨ q = oddReg p)) ∨
    i = .inc q ∨ (∃ a8, i = .isz q a8)

/-- R21, R22: only JMS writes the call stack or moves `sp`. -/
def Obligations.OnlyJmsWritesStack : Prop :=
  ∀ (i : Instr) (s t : State), exec i s = .next t → t.stack ≠ s.stack ∨ t.sp ≠ s.sp → ∃ a12, i = .jms a12

/-- R19: only JCN, JIN, JUN, JMS and ISZ write `pc` at the decode; R43: only FIN drives the bus or the latch there. -/
def Obligations.OnlyJumpsWritePcAndOnlyFinUsesBus : Prop :=
  ∀ (i : Instr) (s t : State), exec i s = .next t →
    (t.pc ≠ s.pc → (∃ c a8, i = .jcn c a8) ∨ (∃ p, i = .jin p) ∨ (∃ a, i = .jun a) ∨ (∃ a, i = .jms a) ∨
      ∃ r a8, i = .isz r a8) ∧
    (t.bus ≠ s.bus ∨ t.addrLatch ≠ s.addrLatch → ∃ p, i = .fin p)

/-- R27: no instruction's result depends on the bus: with any other nibble on it, the result differs at most on the bus. -/
def Obligations.NoResultDependsOnBus : Prop :=
  ∀ (i : Instr) (s : State) (n : Nibble), ∃ t u, exec i s = .next t ∧ exec i { s with bus := n } = .next u ∧
    u = { t with bus := u.bus }

/-- R21, R105, R144: nothing reads the call stack: with any other stack and `sp`, the registers, `pc` and every other
component but those two come out the same. -/
def Obligations.NothingReadsTheStack : Prop :=
  ∀ (i : Instr) (s : State) (stack : Vector Addr 3) (sp : Fin 3), ∃ t u,
    exec i s = .next t ∧ exec i { s with stack := stack, sp := sp } = .next u ∧
    u = { t with stack := u.stack, sp := u.sp }

/-! ### The clock step and the two-word protocol -/

/-- R84: the decode of a wide first word records OPR and OPA in the latch and changes nothing else: no register is
incremented, nothing is pushed, `pc` stays. -/
def Obligations.WideFirstWordOnlyArmsLatch : Prop :=
  ∀ (s : State), s.wide.pending = false → hiNibble s.ir ∈ [0x1#4, 0x2#4, 0x4#4, 0x5#4, 0x7#4] →
    decodeStep s = .next { s with wide := { pending := true, opr := hiNibble s.ir, opa := loNibble s.ir } }

/-- R72, R85, R86 (that the completing decode clears the latch is decision D1, that it keeps the cached nibbles D18): with
the latch set, the byte in `ir` only supplies operand bits: the instruction is the wide one the latch names, whatever the
byte. -/
def Obligations.SecondWordIsDataAndClearsLatch : Prop :=
  ∀ (s : State), s.wide.pending = true → s.pendingIsWide → ∃ i,
    decode [joinNibbles s.wide.opr s.wide.opa, s.ir] = .ok (i, []) ∧ i.words = 2 ∧
    decodeStep s = andThen (exec i s) fun t => .next { t with wide := { s.wide with pending := false } }

/-- R83, R84, R71: with the latch clear, a byte in `ir` that is a single-word instruction is executed at once: the decode
is its meaning, it answers a next state, and the latch stays as it is. -/
def Obligations.SingleWordIsExecutedAtOnce : Prop :=
  ∀ (s : State) (i : Instr), s.wide.pending = false → decode [s.ir] = .ok (i, []) →
    decodeStep s = exec i s ∧ ∃ t, decodeStep s = .next t ∧ t.wide = s.wide

/-- R88 (the latch is the spec's decision D2; a step is one instruction: log 1): a halted core does not step; an
instruction step changes nothing either. -/
def Obligations.HaltedCoreDoesNotStep : Prop :=
  ∀ (s : State), s.halted = true → clockStep s = .next s ∧ step s = .next s

/-- U10 of spec/93_implementation_defined.md (the refusal is the model's choice between its two treatments, log 4; a step
is one instruction: log 1): on a tuple whose stage disagrees with its cycle, a core that is not halted has no step. -/
def Obligations.DisagreeingStageHasNoStep : Prop :=
  ∀ (s : State), s.halted = false → ¬ s.stageAgrees →
    clockStep s = .refused .stageCycleMismatch ∧ step s = .refused .stageCycleMismatch

/-- R87 (decision D2): the comparator looks at `pc` after every clock step, and only then: the core is halted after it
exactly if the new `pc` is at or beyond the loaded size. -/
def Obligations.ComparatorRunsAfterEveryClockStep : Prop :=
  ∀ (s : State), s.halted = false → s.stageAgrees →
    ∃ t, clockStep s = .next t ∧ (t.halted = true ↔ s.romSizeBytes.val ≤ t.pc.toNat)

/-- R19, R81 (modulo 4096: decision D3): a clock step leaves `pc`, but for the one that performs the decode (cycle 5) and
the one that ends the instruction cycle (cycle 7), which adds one modulo 4096. -/
def Obligations.PcMovesOnlyAtDecodeAndAtCycleEnd : Prop :=
  ∀ (s t : State), s.halted = false → clockStep s = .next t →
    (s.cycle ≠ 5 → s.cycle ≠ 7 → t.pc = s.pc) ∧
    (s.cycle = 7 → t.pc.toNat = (s.pc.toNat + 1) % 4096 ∧ t.cycle = 0 ∧ t.stage = .fetchAddr)

/-- R80, R81, R95 (the comparator's latch is decision D2, modulo 4096 D3): clock cycles 0 to 4 change nothing but the
fetch's own latches, the position and `halted`; cycle 5 is one decode, the position and the comparator; cycle 6 only
counts; cycle 7 only ends the instruction cycle: cycle 0, stage A, `pc` plus one. -/
def Obligations.DecodeHappensInFirstExecuteCycleOnly : Prop :=
  ∀ (s : State), s.halted = false → s.stageAgrees →
    (s.cycle.val ≤ 4 → ∃ t, clockStep s = .next t ∧ t.cycle = s.cycle + 1 ∧
      t = { s with
              bus := t.bus, addrLatch := t.addrLatch, nibblePhase := t.nibblePhase, ir := t.ir, cycle := t.cycle,
              stage := t.stage, halted := decide (s.romSizeBytes.val ≤ s.pc.toNat) }) ∧
    (s.cycle = 5 → ∃ d, decodeStep s = .next d ∧
      clockStep s = .next { d with cycle := 6, halted := decide (d.romSizeBytes.val ≤ d.pc.toNat) }) ∧
    (s.cycle = 6 →
      clockStep s = .next { s with cycle := 7, halted := decide (s.romSizeBytes.val ≤ s.pc.toNat) }) ∧
    (s.cycle = 7 →
      clockStep s = .next { s with
        cycle := 0, stage := .fetchAddr, pc := s.pc + 1#12,
        halted := decide (s.romSizeBytes.val ≤ (s.pc + 1#12).toNat) })

/-- R96 item 1, R78, R79: from the beginning of an instruction cycle, five clock steps bring the byte at `pc` into `ir`,
leave `pc` in the latch and the low nibble on the bus, and change nothing else. -/
def Obligations.FiveClockStepsFetchTheByteAtPc : Prop :=
  ∀ (s : State), s.ready →
    clockRun 5 s = .next { s with
      addrLatch := s.pc, ir := romByte s s.pc, bus := loNibble (romByte s s.pc), cycle := 5, stage := .execute }

/-- R96 (decisions D2, D3): eight clock steps from the beginning of an instruction cycle are the fetch, one decode, and the
post-increment, with the run-end check after the decode and after the increment (a run that ends at the decode stays where
it ended). -/
def Obligations.EightClockStepsAreOneInstructionCycle : Prop :=
  ∀ (s : State), s.ready → clockRun 8 s = instructionCycle s

/-- R86, R89 (decisions D1, D2): the latch is set for exactly eight clock steps: from the decode of the first word (the
6th) to the decode of the second (the 14th). -/
def Obligations.WideLatchIsSetForEightClockSteps : Prop :=
  ∀ (s : State) (k : Nat), s.ready → s.wide.pending = false →
    hiNibble (romByte s s.pc) ∈ [0x1#4, 0x2#4, 0x4#4, 0x5#4, 0x7#4] → (s.pc + 1#12).toNat < s.romSizeBytes.val → k ≤ 14 →
    ∃ t, clockRun k s = .next t ∧ (t.wide.pending = true ↔ 6 ≤ k ∧ k < 14)

/-! ### The step: one instruction -/

/-- R97 with R96, R142 (decisions D1, D2, D3; a step is one instruction: log 1): a step from between two instructions runs
exactly the instruction the bytes at `pc` decode to. A single-word one: fetch, its meaning, finish. A wide one whose second
word is inside the image: the first word is remembered, the second fetched, then its meaning, the latch cleared, finish. A
wide one whose second word is beyond the image: the run ends after the first word and its meaning is never applied. -/
def Obligations.StepRunsTheDecodedInstruction : Prop :=
  ∀ (s : State) (i : Instr) (rest : List Byte), s.ready → s.wide.pending = false →
    decode [romByte s s.pc, romByte s (s.pc + 1#12)] = .ok (i, rest) →
    (i.words = 1 → step s = andThen (exec i (fetched s)) fun t => .next (finished t)) ∧
    (i.words = 2 → (s.pc + 1#12).toNat < s.romSizeBytes.val →
      step s = andThen (exec i (fetched (firstWordDone s))) fun t => .next (finished (clearWide t))) ∧
    (i.words = 2 → s.romSizeBytes.val ≤ (s.pc + 1#12).toNat →
      step s = .next (firstWordDone s) ∧ (firstWordDone s).halted = true ∧ (firstWordDone s).wide.pending = true)

/-- The model's choice (log 7; it stands for a load from outside, log 3; the order of the words in the number, log 23), no
rule of the spec: after `withFetchWord` the
core is ready to fetch at the same `pc` with the same registers, the second word is inside the image, and the bytes at `pc`
and after it decode to the table word's instruction. -/
def Obligations.PlacedWordIsWhatTheStepFetches : Prop :=
  ∀ (s : State) (nbits w : Nat) (i : Instr), Memory.wf s.rom = true → decodeTableWord nbits w = some i →
    (s.withFetchWord nbits w).ready ∧ (s.withFetchWord nbits w).wide.pending = false ∧
    (s.withFetchWord nbits w).pc = s.pc ∧ (s.withFetchWord nbits w).regs = s.regs ∧
    (s.pc + 1#12).toNat < (s.withFetchWord nbits w).romSizeBytes.val ∧
    ∃ rest, decode [romByte (s.withFetchWord nbits w) s.pc, romByte (s.withFetchWord nbits w) (s.pc + 1#12)] = .ok (i, rest)

/-- R118, R119, R120 (decisions D9, D14; a step is one instruction: log 1): on every state whose stage agrees with its
cycle a step answers a next state: BoundsAbort is unreachable and nothing raises an exception. -/
def Obligations.StepNeverFaults : Prop :=
  ∀ (s : State), s.stageAgrees → (∃ t, clockStep s = .next t ∧ t.stageAgrees) ∧ ∃ t, step s = .next t ∧ t.stageAgrees

/-- R89, R152 (decisions D1, D2; a step is one instruction: log 1): a step ends the run or ends between two instructions:
sixteen clock steps always suffice. -/
def Obligations.StepEndsBetweenInstructionsOrHalted : Prop :=
  ∀ (s t : State), s.stageAgrees → step s = .next t → t.halted = true ∨ (t.cycle = 0 ∧ t.wide.pending = false)

/-- R152 (decisions D1, D2; a step is one instruction: log 1): a single-word instruction takes 8 clock steps and a wide one
16, taken or not taken (a run that ends on the way stays where it ended). -/
def Obligations.SingleWordTakesEightClockStepsWideSixteen : Prop :=
  ∀ (s : State) (i : Instr) (rest : List Byte), s.ready → s.wide.pending = false →
    decode [romByte s s.pc, romByte s (s.pc + 1#12)] = .ok (i, rest) →
    step s = clockRun (8 * i.words) s ∧
    ∀ k t, 0 < k → k < 8 * i.words → clockRun k s = .next t → t.halted = false → ¬ (t.cycle = 0 ∧ t.wide.pending = false)

/-- R53, R32, R59 (a step is one instruction: log 1): no step writes program memory, its size or a RAM character. -/
def Obligations.StepWritesNoMemory : Prop :=
  ∀ (s t : State), step s = .next t →
    (∀ a, romByte t a = romByte s a) ∧ t.rom = s.rom ∧ t.romSizeBytes = s.romSizeBytes ∧
    (∀ bank chip reg char, ramMain t bank chip reg char = ramMain s bank chip reg char) ∧
    (∀ bank chip reg char, ramStatus t bank chip reg char = ramStatus s bank chip reg char)

/-- R17, R18, R145 (a step is one instruction: log 1): no step changes the accumulator or the carry flag, whatever they
hold. -/
def Obligations.StepLeavesAccumulatorAndCarry : Prop :=
  ∀ (s t : State), step s = .next t → t.acc = s.acc ∧ t.cy = s.cy

/-- R139 with R92, R115 (modulo 4096: decision D3; a step is one instruction: log 1): after JIN the next instruction is
fetched one byte AFTER the address of the page-rule bank and the pair, unless the run ends there. -/
def Obligations.JinGoesOnOneByteAfterThePair : Prop :=
  ∀ (s : State) (p : PairIx), s.ready → s.wide.pending = false → romByte s s.pc = joinNibbles 0x3#4 (pairNibble p 1#1) →
    ∃ t, step s = .next t ∧
      ((jinTarget s p).toNat < s.romSizeBytes.val →
        t.pc = jinTarget s p + 1#12 ∧ t.cycle = 0 ∧ (t.halted = true ↔ s.romSizeBytes.val ≤ t.pc.toNat)) ∧
      (s.romSizeBytes.val ≤ (jinTarget s p).toNat → t.pc = jinTarget s p ∧ t.cycle = 6 ∧ t.halted = true)

/-- R97, R98, R141 with R116 (decisions D1, D2; modulo 4096: D3; a step is one instruction: log 1): JUN goes on at its
target; but if the committed value, the target less one, is at or beyond the loaded size the run ends at the decode step. -/
def Obligations.JunLandsOrEndsTheRun : Prop :=
  ∀ (s : State) (a12 : Addr), s.ready → s.wide.pending = false → romByte s s.pc = joinNibbles 0x4#4 (addrTop a12) →
    romByte s (s.pc + 1#12) = addrLow a12 → (s.pc + 1#12).toNat < s.romSizeBytes.val →
    ∃ t, step s = .next t ∧ t.regs = s.regs ∧ t.stack = s.stack ∧ t.sp = s.sp ∧
      ((a12 - 1#12).toNat < s.romSizeBytes.val →
        t.pc = a12 ∧ t.cycle = 0 ∧ (t.halted = true ↔ s.romSizeBytes.val ≤ a12.toNat)) ∧
      (s.romSizeBytes.val ≤ (a12 - 1#12).toNat → t.pc = a12 - 1#12 ∧ t.cycle = 6 ∧ t.stage = .execute ∧ t.halted = true)

/-- R140 (it rests on the spec's decision D3, U3 of spec/93_implementation_defined.md, and on D2; a step is one
instruction: log 1): `JUN 0x000`, `JMS 0x000`, and a taken `JCN c, 0x00` or `ISZ r, 0x00` whose second word is in bank 0
and not at offset 255, end the run at their decode step with `pc` 0xFFF, unless the image fills program memory, and then
execution goes on at 0x000. JCN's condition (D6, C4) is R113's, ISZ's is C5's: the register is not 0xF before. -/
def Obligations.JumpToZeroEndsTheRunUnlessImageIsFull : Prop :=
  ∀ (s : State) (i : Instr), s.ready → s.wide.pending = false →
    decode [romByte s s.pc, romByte s (s.pc + 1#12)] = .ok (i, []) → (s.pc + 1#12).toNat < s.romSizeBytes.val →
    i = .jun 0x000#12 ∨ i = .jms 0x000#12 ∨
      ((s.pc + 1#12).toNat < 255 ∧
        ((∃ c, i = .jcn c 0x00#8 ∧ jcnTaken s c = true) ∨ ∃ r, i = .isz r 0x00#8 ∧ getReg s r ≠ 0xF#4)) →
    ∃ t, step s = .next t ∧
      (s.romSizeBytes.val ≤ 4095 → t.pc = 0xFFF#12 ∧ t.cycle = 6 ∧ t.stage = .execute ∧ t.halted = true) ∧
      (s.romSizeBytes.val = 4096 → t.pc = 0x000#12 ∧ t.cycle = 0 ∧ t.halted = false)

/-! ### Invariants -/

/-- R35, R36: the reset state has the invariant (its empty image is the model's choice, log 3), and so has a tuple put
through RESET whose program memory obeys the loader's contract. -/
def Obligations.ResetStateHasInvariant : Prop :=
  State.reset.Inv ∧ ∀ (s : State), s.romContract → (assertReset s).Inv

/-- R35, R36, R136: so has the state in which the run of any image starts. -/
def Obligations.EveryImageStartsInInvariant : Prop :=
  ∀ (image : List Byte), (startOf image).Inv

/-- R36 (an inference of the spec; decisions D1, D2, D3, D4, D5, D20, D23), strengthened to be inductive with what R44,
R78, R79 and R90 say of the fetch and the pending word: every clock step keeps the invariant, from every state that has it. -/
def Obligations.ClockStepKeepsInvariant : Prop :=
  ∀ (s t : State), s.Inv → clockStep s = .next t → t.Inv

/-- R36 (an inference of the spec; a step is one instruction: log 1): every instruction step keeps the invariant, from
every state that has it. -/
def Obligations.StepKeepsInvariant : Prop :=
  ∀ (s t : State), s.Inv → step s = .next t → t.Inv

/-- R36 (an inference of the spec; item 6's reset with an empty image rests on decision D2): any number of clock steps from
the start of any image answers a next state, and that state satisfies the seven items as the spec lists them. -/
def Obligations.ReachableStatesSatisfyTheListedItems : Prop :=
  ∀ (image : List Byte) (n : Nat), ∃ t, clockRun n (startOf image) = .next t ∧ t.R36 ∧ t.sp.val < 3

/-- R90, R36 item 7 (decisions D1, D3): whenever the run of an image is about to perform a decode, `ir` holds the image's
byte at `pc` and the address latch holds `pc`, so that FIN's bank is the bank of `pc`; and where the decode is a completing
one, the wide latch holds the image's byte before it. (A byte beyond the image is 0x00: decision D8.) -/
def Obligations.DecodeSeesTheWordsAtPc : Prop :=
  ∀ (image : List Byte) (n : Nat) (s : State), clockRun n (startOf image) = .next s → s.cycle = 5 →
    s.ir = image.getD s.pc.toNat 0x00#8 ∧ s.addrLatch = s.pc ∧
    finAddress s = joinAddr (addrTop s.pc) (getPair s 0) ∧
    (s.wide.pending = true → joinNibbles s.wide.opr s.wide.opa = image.getD (s.pc - 1#12).toNat 0x00#8)

/-- R90, R89 (decisions D2, D3): thirteen clock steps after a wide instruction begins, at its completing decode, `pc` and
the address latch hold the address of its second word, `ir` the second word, the wide latch the first, and everything else
(every register, the flags, the stack, `sp`) is as the instruction before left it. -/
def Obligations.CompletingDecodeSeesBothWords : Prop :=
  ∀ (s : State), s.ready → s.wide.pending = false →
    hiNibble (romByte s s.pc) ∈ [0x1#4, 0x2#4, 0x4#4, 0x5#4, 0x7#4] → (s.pc + 1#12).toNat < s.romSizeBytes.val →
    clockRun 13 s = .next { s with
      pc := s.pc + 1#12, addrLatch := s.pc + 1#12, ir := romByte s (s.pc + 1#12),
      bus := loNibble (romByte s (s.pc + 1#12)),
      wide := { pending := true, opr := hiNibble (romByte s s.pc), opa := loNibble (romByte s s.pc) },
      cycle := 5, stage := .execute }

/-! ### Reset, loading, the end of a run -/

/-- R35 (the zeroes of the components §3 does not list are decision D11; the empty program memory is the model's choice,
log 3): the reset state, component by component. -/
def Obligations.ResetValues : Prop :=
  ∀ (s : State),
    (∀ r, getReg (assertReset s) r = 0#4) ∧ (assertReset s).acc = 0#4 ∧ (assertReset s).cy = false ∧
    (assertReset s).pc = 0x000#12 ∧ (∀ k, (assertReset s).stack.get k = 0x000#12) ∧ (assertReset s).sp = 0 ∧
    (assertReset s).ir = 0x00#8 ∧ (assertReset s).bus = 0x0#4 ∧ (assertReset s).wide = ⟨false, 0#4, 0#4⟩ ∧
    (assertReset s).stage = .fetchAddr ∧ (assertReset s).cycle = 0 ∧ (assertReset s).addrLatch = 0x000#12 ∧
    (assertReset s).nibblePhase = 0#1 ∧ (assertReset s).halted = false ∧
    (∀ bank chip reg char, ramMain (assertReset s) bank chip reg char = 0#4) ∧
    (∀ bank chip reg char, ramStatus (assertReset s) bank chip reg char = 0#4) ∧
    (∀ a, romByte (assertReset s) a = romByte s a) ∧ (assertReset s).romSizeBytes = s.romSizeBytes ∧
    assertReset State.reset = State.reset

/-- R136 (the zero bytes and the truncated size are decision D8): the loader's contract, and that loading and resetting
commute. -/
def Obligations.LoaderContract : Prop :=
  ∀ (s : State) (image : List Byte),
    (∀ a : Addr, romByte (loadImage s image) a = image.getD a.toNat 0x00#8) ∧
    (loadImage s image).romSizeBytes.val = min image.length 4096 ∧
    assertReset (loadImage s image) = loadImage (assertReset s) image ∧
    loadImage s image = { s with rom := (loadImage s image).rom, romSizeBytes := (loadImage s image).romSizeBytes }

/-- R138, R87 (decision D2; a step is one instruction: log 1): with an empty image the first clock step is performed, and
then the run has ended. -/
def Obligations.EmptyImageStillTakesOneClockStep : Prop :=
  ∀ (s : State), s.romSizeBytes = 0 →
    clockStep (assertReset s) = .next { assertReset s with cycle := 1, halted := true } ∧
    step (assertReset s) = .next { assertReset s with cycle := 1, halted := true }

/-- R99, R109 (the source's end-to-end case S7): the image `20 A1` runs for exactly 16 clock steps and leaves the pair 0 at
0xA1; S8: the image `4F FF` ends after exactly 14 with `pc` 0xFFE. -/
def Obligations.SourceExamplesRunAsListed : Prop :=
  (∃ t, RunEndsAfter [0x20#8, 0xA1#8] 16 t ∧ readPair t 0 = 0xA1#8 ∧ t.pc = 0x002#12) ∧
  (∃ t, RunEndsAfter [0x4F#8, 0xFF#8] 14 t ∧ t.pc = 0xFFE#12 ∧ t.cycle = 6)
end

