-- ==== Sys2Proof/Laws/Words.lean ====
section
/-! SUPPORT. The bit-field helpers undo one another (spec/30_encoding.md R61 to R65). -/

namespace Sys2Proof

@[simp] theorem hiNibble_joinNibbles (h l : Nibble) : hiNibble (joinNibbles h l) = h := by
  revert h l; decide

@[simp] theorem loNibble_joinNibbles (h l : Nibble) : loNibble (joinNibbles h l) = l := by
  revert h l; decide

@[simp] theorem joinNibbles_hiNibble_loNibble (b : Byte) : joinNibbles (hiNibble b) (loNibble b) = b := by
  revert b; decide

@[simp] theorem addrTop_joinAddr (t : Nibble) (l : Byte) : addrTop (joinAddr t l) = t := by
  unfold addrTop joinAddr
  ext i hi
  have h : BitVec.getLsbD (t ++ l) (8 + i) = t.getLsbD i := by rw [BitVec.getLsbD_append]; simp
  simpa [BitVec.getLsbD_eq_getElem hi] using h

@[simp] theorem addrLow_joinAddr (t : Nibble) (l : Byte) : addrLow (joinAddr t l) = l := by
  unfold addrLow joinAddr
  ext i hi
  have h : BitVec.getLsbD (t ++ l) i = l.getLsbD i := by rw [BitVec.getLsbD_append]; simp [hi]
  simpa [BitVec.getLsbD_eq_getElem hi] using h

@[simp] theorem joinAddr_addrTop_addrLow (a : Addr) : joinAddr (addrTop a) (addrLow a) = a := by
  unfold joinAddr addrTop addrLow
  ext i hi
  rw [← BitVec.getLsbD_eq_getElem hi, ← BitVec.getLsbD_eq_getElem hi, BitVec.getLsbD_append]
  by_cases h : i < 8
  · simp [h]
  · have e : 8 + (i - 8) = i := by omega
    simp [h, e, show i - 8 < 4 by omega]

theorem joinNibbles_inj {h l h' l' : Nibble} (e : joinNibbles h l = joinNibbles h' l') : h = h' ∧ l = l' :=
  ⟨by simpa using congrArg hiNibble e, by simpa using congrArg loNibble e⟩

@[simp] theorem pairOfOpa_pairNibble (p : PairIx) (x : BitVec 1) : pairOfOpa (pairNibble p x) = p := by
  revert p x; decide

@[simp] theorem lowBit_pairNibble (p : PairIx) (x : BitVec 1) : lowBit (pairNibble p x) = x := by
  revert p x; decide

@[simp] theorem pairNibble_pairOfOpa (o : Nibble) : pairNibble (pairOfOpa o) (lowBit o) = o := by
  revert o; decide

theorem pairOfOpa_val (o : Nibble) : (pairOfOpa o).val = o.toNat / 2 := by
  revert o; decide

@[simp] theorem regOfOpa_regNibble (r : RegIx) : regOfOpa (regNibble r) = r := rfl

@[simp] theorem regNibble_regOfOpa (o : Nibble) : regNibble (regOfOpa o) = o := rfl

theorem regOfOpa_val (o : Nibble) : (regOfOpa o).val = o.toNat := rfl

theorem lowBit_cases (x : BitVec 1) : x = 0#1 ∨ x = 1#1 := by
  revert x; decide

/-- The bank and offset of an address as numbers (R38). -/
theorem addrTop_toNat (a : Addr) : (addrTop a).toNat = a.toNat / 256 := by
  have := a.isLt
  simp only [addrTop, BitVec.extractLsb'_toNat, Nat.shiftRight_eq_div_pow]
  omega

theorem addrLow_toNat (a : Addr) : (addrLow a).toNat = a.toNat % 256 := by
  simp [addrLow, BitVec.extractLsb'_toNat]

theorem isWideOpr_iff (o : Nibble) : isWideOpr o = true ↔ o ∈ [0x1#4, 0x2#4, 0x4#4, 0x5#4, 0x7#4] := by
  revert o; decide

end Sys2Proof
end

