-- ==== Sys2Proof/Laws/Decode.lean ====
section
/-! SUPPORT. What the two halves of the decoder answer: which OPR values they accept, and the length of what they give. -/

namespace Sys2Proof

/-- The single-word half refuses exactly the five wide OPR values (R64, R83). -/
theorem decodeSingle_eq_none_iff (opr opa : Nibble) : decodeSingle opr opa = none ↔ isWideOpr opr = true := by
  revert opr opa; decide

/-- The wide half accepts exactly those (R85). -/
theorem decodeWide_eq_none_iff (popr popa opr2 opa2 : Nibble) :
    decodeWide popr popa opr2 opa2 = none ↔ isWideOpr popr = false := by
  unfold decodeWide
  split <;> simp_all [isWideOpr]

theorem decodeSingle_words {opr opa : Nibble} {i : Instr} (h : decodeSingle opr opa = some i) : i.words = 1 := by
  have hAll : ∀ o a, (decodeSingle o a).all (fun i => i.words == 1) = true := by decide
  have := hAll opr opa
  rw [h] at this
  simpa using this

theorem decodeWide_words {popr popa opr2 opa2 : Nibble} {i : Instr} (h : decodeWide popr popa opr2 opa2 = some i) :
    i.words = 2 := by
  unfold decodeWide at h
  split at h <;> simp_all <;> subst h <;> rfl

/-- A first word that is not wide is a single-word instruction, whatever follows (R64, R71). -/
theorem exists_decodeSingle {opr : Nibble} (h : isWideOpr opr = false) (opa : Nibble) :
    ∃ i, decodeSingle opr opa = some i :=
  Option.ne_none_iff_exists'.mp fun e => by simp [(decodeSingle_eq_none_iff opr opa).mp e] at h

/-- A wide first word and any second word are a wide instruction (R71, R72). -/
theorem exists_decodeWide {popr : Nibble} (h : isWideOpr popr = true) (popa opr2 opa2 : Nibble) :
    ∃ i, decodeWide popr popa opr2 opa2 = some i :=
  Option.ne_none_iff_exists'.mp fun e => by simp [(decodeWide_eq_none_iff popr popa opr2 opa2).mp e] at h

/-- Decoding by the kind of the first word. -/
theorem decode_single {w : Byte} {i : Instr} (h : decodeSingle (hiNibble w) (loNibble w) = some i) (rest : List Byte) :
    decode (w :: rest) = .ok (i, rest) := by
  simp [decode, h]

theorem decode_wide {w1 w2 : Byte} {i : Instr}
    (h : decodeWide (hiNibble w1) (loNibble w1) (hiNibble w2) (loNibble w2) = some i) (rest : List Byte) :
    decode (w1 :: w2 :: rest) = .ok (i, rest) := by
  have hw : isWideOpr (hiNibble w1) = true := by
    by_contra hc
    have := (decodeWide_eq_none_iff (hiNibble w1) (loNibble w1) (hiNibble w2) (loNibble w2)).mpr (by simpa using hc)
    simp [this] at h
  simp [decode, (decodeSingle_eq_none_iff _ _).mpr hw, h]

/-- What a list that decodes looks like: a single word, or a wide word with its second word. -/
theorem decode_cases {ws rest : List Byte} {i : Instr} (h : decode ws = .ok (i, rest)) :
    (∃ w, ws = w :: rest ∧ decodeSingle (hiNibble w) (loNibble w) = some i) ∨
    (∃ w1 w2, ws = w1 :: w2 :: rest ∧ isWideOpr (hiNibble w1) = true ∧
      decodeWide (hiNibble w1) (loNibble w1) (hiNibble w2) (loNibble w2) = some i) := by
  unfold decode at h
  split at h
  · simp at h
  · rename_i w1 tail
    split at h
    · rename_i j hj
      simp only [Except.ok.injEq, Prod.mk.injEq] at h
      obtain ⟨rfl, rfl⟩ := h
      exact .inl ⟨w1, rfl, hj⟩
    · rename_i hn
      split at h
      · simp at h
      · rename_i w2 rest2
        split at h
        · rename_i j hj
          simp only [Except.ok.injEq, Prod.mk.injEq] at h
          obtain ⟨rfl, rfl⟩ := h
          exact .inr ⟨w1, w2, rfl, (decodeSingle_eq_none_iff _ _).mp hn, hj⟩
        · simp at h

end Sys2Proof
end

