-- ==== Sys2Proof/Laws/Memory.lean ====
section
/-! SUPPORT. Program memory: read after write, and every operation keeps the canonical form. -/

namespace Sys2Proof.Machine

theorem Memory.wfFrom_mono {lo lo' : Nat} {m : Memory} (hle : lo' ≤ lo) (h : Memory.wfFrom lo m = true) :
    Memory.wfFrom lo' m = true := by
  cases m with
  | nil => rfl
  | cons c rest =>
    obtain ⟨a, v⟩ := c
    simp only [Memory.wfFrom, Bool.and_eq_true, decide_eq_true_eq] at h ⊢
    exact ⟨⟨⟨by omega, h.1.1.2⟩, h.1.2⟩, h.2⟩

/-- Below the first listed address of a canonical memory every byte reads 0x00. -/
theorem Memory.get_below {lo : Nat} {m : Memory} (h : Memory.wfFrom lo m = true) {a : Nat} (ha : a < lo) :
    Memory.get m a = 0#8 := by
  induction m generalizing lo with
  | nil => rfl
  | cons c rest ih =>
    obtain ⟨b, v⟩ := c
    simp only [Memory.wfFrom, Bool.and_eq_true, decide_eq_true_eq] at h
    have hb : a ≠ b := by omega
    simp only [Memory.get, if_neg hb]
    exact ih h.2 (by omega)

/-- A write keeps the canonical form. -/
theorem Memory.wfFrom_set {lo : Nat} {m : Memory} (h : Memory.wfFrom lo m = true) {a : Nat} (v : Byte)
    (hlo : lo ≤ a) (ha : a < 4096) : Memory.wfFrom lo (Memory.set m a v) = true := by
  induction m generalizing lo with
  | nil =>
    unfold Memory.set
    split
    · rfl
    · rename_i hv; simp [Memory.wfFrom, Config.addressSpace, hlo, ha, hv]
  | cons c rest ih =>
    obtain ⟨b, w⟩ := c
    have hc := h
    simp only [Memory.wfFrom, Bool.and_eq_true, decide_eq_true_eq] at hc
    obtain ⟨⟨⟨hlb, hb⟩, hw⟩, hrest⟩ := hc
    unfold Memory.set
    split
    · rename_i hab
      split
      · exact h
      · rename_i hv
        have : a + 1 ≤ b := hab
        simp [Memory.wfFrom, Config.addressSpace, hlo, ha, hv, this, hrest]
        exact ⟨decide_eq_true (by simpa [Config.addressSpace] using hb), by simpa using hw⟩
    · split
      · rename_i hab; subst hab
        split
        · exact Memory.wfFrom_mono (by omega) hrest
        · rename_i hv
          simp [Memory.wfFrom, Config.addressSpace, hlo, ha, hv, hrest]
      · have hi := ih hrest (by omega)
        simp only [Memory.wfFrom, Bool.and_eq_true, decide_eq_true_eq]
        exact ⟨⟨⟨hlb, hb⟩, hw⟩, hi⟩

/-- Every write of a byte inside the address space keeps the canonical form. -/
theorem Memory.wf_set {m : Memory} (h : Memory.wf m = true) {a : Nat} (v : Byte) (ha : a < 4096) :
    Memory.wf (Memory.set m a v) = true :=
  Memory.wfFrom_set h v (Nat.zero_le a) ha

/-- Reading the byte just written. -/
theorem Memory.get_set_same {lo : Nat} {m : Memory} (h : Memory.wfFrom lo m = true) (a : Nat) (v : Byte) :
    Memory.get (Memory.set m a v) a = v := by
  induction m generalizing lo with
  | nil =>
    unfold Memory.set
    split
    · rename_i hv; simp [Memory.get, hv]
    · simp [Memory.get]
  | cons c rest ih =>
    obtain ⟨b, w⟩ := c
    simp only [Memory.wfFrom, Bool.and_eq_true, decide_eq_true_eq] at h
    unfold Memory.set
    split
    · rename_i hab
      split
      · rename_i hv
        have hb : a ≠ b := by omega
        simp only [Memory.get, if_neg hb]
        rw [Memory.get_below h.2 (by omega), hv]
      · simp [Memory.get]
    · split
      · rename_i hab; subst hab
        split
        · rename_i hv
          rw [Memory.get_below h.2 (by omega), hv]
        · simp [Memory.get]
      · rename_i hab
        simp only [Memory.get, if_neg hab]
        exact ih h.2

/-- A write leaves every other address alone. -/
theorem Memory.get_set_other (m : Memory) {a a' : Nat} (v : Byte) (hne : a' ≠ a) :
    Memory.get (Memory.set m a v) a' = Memory.get m a' := by
  induction m with
  | nil =>
    unfold Memory.set
    split
    · rfl
    · simp [Memory.get, hne]
  | cons c rest ih =>
    obtain ⟨b, w⟩ := c
    unfold Memory.set
    split
    · split
      · rfl
      · simp [Memory.get, hne]
    · split
      · rename_i hab; subst hab
        split
        · simp [Memory.get, hne]
        · simp [Memory.get, hne]
      · simp [Memory.get, ih]

/-- The addresses a write can list. -/
theorem Memory.mem_set {m : Memory} {a : Nat} {v : Byte} {c : Host.Cell} (h : c ∈ Memory.set m a v) :
    c.1 = a ∨ c ∈ m := by
  induction m with
  | nil =>
    unfold Memory.set at h
    split at h
    · simp at h
    · simp at h; simp [h]
  | cons d rest ih =>
    obtain ⟨b, w⟩ := d
    unfold Memory.set at h
    split at h
    · split at h
      · exact .inr h
      · simp only [List.mem_cons] at h ⊢
        rcases h with rfl | h | h <;> simp [*]
    · split at h
      · split at h
        · exact .inr (List.mem_cons_of_mem _ h)
        · simp only [List.mem_cons] at h ⊢
          rcases h with rfl | h <;> simp [*]
      · simp only [List.mem_cons] at h ⊢
        rcases h with h | h
        · simp [h]
        · rcases ih h with h | h <;> simp [h]

/-- Loading keeps the canonical form. -/
theorem Memory.wf_load {m : Memory} (h : Memory.wf m = true) (a : Nat) (bytes : List Byte) :
    Memory.wf (Memory.load m a bytes) = true := by
  induction bytes generalizing m a with
  | nil => exact h
  | cons b rest ih =>
    unfold Memory.load
    split
    · exact ih (Memory.wf_set h b (by simpa [Config.addressSpace] using ‹a < Config.addressSpace›)) (a + 1)
    · exact h

/-- Reading a byte after loading: inside the loaded bytes the byte loaded there, elsewhere what was there (R136). -/
theorem Memory.get_load {m : Memory} (h : Memory.wf m = true) (a : Nat) (bytes : List Byte) {x : Nat} (hx : x < 4096) :
    Memory.get (Memory.load m a bytes) x =
      if a ≤ x ∧ x < a + bytes.length then bytes.getD (x - a) 0#8 else Memory.get m x := by
  induction bytes generalizing m a with
  | nil => rw [if_neg (by simp)]; rfl
  | cons b rest ih =>
    unfold Memory.load
    split
    · rename_i ha
      rw [ih (Memory.wf_set h b ha)]
      by_cases e : x = a
      · subst e
        rw [if_neg (by omega), if_pos (by simp), Memory.get_set_same (lo := 0) h]
        simp
      · rw [Memory.get_set_other _ _ e]
        by_cases g : a ≤ x ∧ x < a + (b :: rest).length
        · simp only [List.length_cons] at g
          rw [if_pos (by omega), if_pos (by simp; omega), show x - a = (x - (a + 1)) + 1 by omega]
          simp
        · rw [if_neg g, if_neg]
          simp only [List.length_cons] at g
          omega
    · rename_i ha
      simp only [Config.addressSpace] at ha
      rw [if_neg]
      omega

/-- The addresses loading can list. -/
theorem Memory.mem_load {m : Memory} {a : Nat} {bytes : List Byte} {c : Host.Cell} (h : c ∈ Memory.load m a bytes) :
    c.1 < min (a + bytes.length) 4096 ∨ c ∈ m := by
  induction bytes generalizing m a with
  | nil => exact .inr h
  | cons b rest ih =>
    unfold Memory.load at h
    split at h
    · rename_i ha
      simp only [Config.addressSpace] at ha
      rcases ih h with h | h
      · left
        simp only [List.length_cons]
        omega
      · rcases Memory.mem_set h with h | h
        · left
          simp only [List.length_cons]
          omega
        · exact .inr h
    · exact .inr h

/-- The reset memory is in canonical form. -/
theorem Memory.wf_reset : Memory.wf State.reset.rom = true := rfl

end Sys2Proof.Machine
end

