-- ==== Sys2Proof/Laws/State.lean ====
section
/-! SUPPORT. One lemma per field per update: what each shared operation leaves and writes, true by rfl; and what it leaves of a
register, a pair and a byte of program memory. Provers cite these instead of unfolding a record update. -/

namespace Sys2Proof.Machine

/-! ### setReg -/

@[simp] theorem setReg_regs (s : State) (r : RegIx) (v : Nibble) : (setReg s r v).regs = s.regs.set r.val v r.isLt := rfl
@[simp] theorem setReg_acc (s : State) (r : RegIx) (v : Nibble) : (setReg s r v).acc = s.acc := rfl
@[simp] theorem setReg_cy (s : State) (r : RegIx) (v : Nibble) : (setReg s r v).cy = s.cy := rfl
@[simp] theorem setReg_pc (s : State) (r : RegIx) (v : Nibble) : (setReg s r v).pc = s.pc := rfl
@[simp] theorem setReg_stack (s : State) (r : RegIx) (v : Nibble) : (setReg s r v).stack = s.stack := rfl
@[simp] theorem setReg_sp (s : State) (r : RegIx) (v : Nibble) : (setReg s r v).sp = s.sp := rfl
@[simp] theorem setReg_ir (s : State) (r : RegIx) (v : Nibble) : (setReg s r v).ir = s.ir := rfl
@[simp] theorem setReg_stage (s : State) (r : RegIx) (v : Nibble) : (setReg s r v).stage = s.stage := rfl
@[simp] theorem setReg_cycle (s : State) (r : RegIx) (v : Nibble) : (setReg s r v).cycle = s.cycle := rfl
@[simp] theorem setReg_wide (s : State) (r : RegIx) (v : Nibble) : (setReg s r v).wide = s.wide := rfl
@[simp] theorem setReg_bus (s : State) (r : RegIx) (v : Nibble) : (setReg s r v).bus = s.bus := rfl
@[simp] theorem setReg_addrLatch (s : State) (r : RegIx) (v : Nibble) : (setReg s r v).addrLatch = s.addrLatch := rfl
@[simp] theorem setReg_nibblePhase (s : State) (r : RegIx) (v : Nibble) : (setReg s r v).nibblePhase = s.nibblePhase := rfl
@[simp] theorem setReg_halted (s : State) (r : RegIx) (v : Nibble) : (setReg s r v).halted = s.halted := rfl
@[simp] theorem setReg_ram (s : State) (r : RegIx) (v : Nibble) : (setReg s r v).ram = s.ram := rfl
@[simp] theorem setReg_rom (s : State) (r : RegIx) (v : Nibble) : (setReg s r v).rom = s.rom := rfl
@[simp] theorem setReg_romSizeBytes (s : State) (r : RegIx) (v : Nibble) : (setReg s r v).romSizeBytes = s.romSizeBytes := rfl
@[simp] theorem romByte_setReg (s : State) (r : RegIx) (v : Nibble) (x : Addr) : romByte (setReg s r v) x = romByte s x := rfl
/-! ### finished -/

/-! ### setPair -/

@[simp] theorem setPair_acc (s : State) (p : PairIx) (b : Byte) : (setPair s p b).acc = s.acc := rfl
@[simp] theorem setPair_cy (s : State) (p : PairIx) (b : Byte) : (setPair s p b).cy = s.cy := rfl
@[simp] theorem setPair_pc (s : State) (p : PairIx) (b : Byte) : (setPair s p b).pc = s.pc := rfl
@[simp] theorem setPair_stack (s : State) (p : PairIx) (b : Byte) : (setPair s p b).stack = s.stack := rfl
@[simp] theorem setPair_sp (s : State) (p : PairIx) (b : Byte) : (setPair s p b).sp = s.sp := rfl
@[simp] theorem setPair_ir (s : State) (p : PairIx) (b : Byte) : (setPair s p b).ir = s.ir := rfl
@[simp] theorem setPair_stage (s : State) (p : PairIx) (b : Byte) : (setPair s p b).stage = s.stage := rfl
@[simp] theorem setPair_cycle (s : State) (p : PairIx) (b : Byte) : (setPair s p b).cycle = s.cycle := rfl
@[simp] theorem setPair_wide (s : State) (p : PairIx) (b : Byte) : (setPair s p b).wide = s.wide := rfl
@[simp] theorem setPair_bus (s : State) (p : PairIx) (b : Byte) : (setPair s p b).bus = s.bus := rfl
@[simp] theorem setPair_addrLatch (s : State) (p : PairIx) (b : Byte) : (setPair s p b).addrLatch = s.addrLatch := rfl
@[simp] theorem setPair_nibblePhase (s : State) (p : PairIx) (b : Byte) : (setPair s p b).nibblePhase = s.nibblePhase := rfl
@[simp] theorem setPair_halted (s : State) (p : PairIx) (b : Byte) : (setPair s p b).halted = s.halted := rfl
@[simp] theorem setPair_ram (s : State) (p : PairIx) (b : Byte) : (setPair s p b).ram = s.ram := rfl
@[simp] theorem setPair_rom (s : State) (p : PairIx) (b : Byte) : (setPair s p b).rom = s.rom := rfl
@[simp] theorem setPair_romSizeBytes (s : State) (p : PairIx) (b : Byte) : (setPair s p b).romSizeBytes = s.romSizeBytes := rfl
@[simp] theorem romByte_setPair (s : State) (p : PairIx) (b : Byte) (x : Addr) : romByte (setPair s p b) x = romByte s x := rfl
/-! ### finished -/

/-! ### driveBus -/

@[simp] theorem driveBus_regs (s : State) (n : Nibble) : (driveBus s n).regs = s.regs := rfl
@[simp] theorem driveBus_acc (s : State) (n : Nibble) : (driveBus s n).acc = s.acc := rfl
@[simp] theorem driveBus_cy (s : State) (n : Nibble) : (driveBus s n).cy = s.cy := rfl
@[simp] theorem driveBus_pc (s : State) (n : Nibble) : (driveBus s n).pc = s.pc := rfl
@[simp] theorem driveBus_stack (s : State) (n : Nibble) : (driveBus s n).stack = s.stack := rfl
@[simp] theorem driveBus_sp (s : State) (n : Nibble) : (driveBus s n).sp = s.sp := rfl
@[simp] theorem driveBus_ir (s : State) (n : Nibble) : (driveBus s n).ir = s.ir := rfl
@[simp] theorem driveBus_stage (s : State) (n : Nibble) : (driveBus s n).stage = s.stage := rfl
@[simp] theorem driveBus_cycle (s : State) (n : Nibble) : (driveBus s n).cycle = s.cycle := rfl
@[simp] theorem driveBus_wide (s : State) (n : Nibble) : (driveBus s n).wide = s.wide := rfl
@[simp] theorem driveBus_bus (s : State) (n : Nibble) : (driveBus s n).bus = n := rfl
@[simp] theorem driveBus_addrLatch (s : State) (n : Nibble) : (driveBus s n).addrLatch = s.addrLatch := rfl
@[simp] theorem driveBus_nibblePhase (s : State) (n : Nibble) : (driveBus s n).nibblePhase = s.nibblePhase := rfl
@[simp] theorem driveBus_halted (s : State) (n : Nibble) : (driveBus s n).halted = s.halted := rfl
@[simp] theorem driveBus_ram (s : State) (n : Nibble) : (driveBus s n).ram = s.ram := rfl
@[simp] theorem driveBus_rom (s : State) (n : Nibble) : (driveBus s n).rom = s.rom := rfl
@[simp] theorem driveBus_romSizeBytes (s : State) (n : Nibble) : (driveBus s n).romSizeBytes = s.romSizeBytes := rfl
@[simp] theorem getReg_driveBus (s : State) (n : Nibble) (q : RegIx) : getReg (driveBus s n) q = getReg s q := rfl
@[simp] theorem getPair_driveBus (s : State) (n : Nibble) (q : PairIx) : getPair (driveBus s n) q = getPair s q := rfl
@[simp] theorem romByte_driveBus (s : State) (n : Nibble) (x : Addr) : romByte (driveBus s n) x = romByte s x := rfl
/-! ### finished -/

/-! ### latchWrite -/

@[simp] theorem latchWrite_regs (s : State) (n : Nibble) : (latchWrite s n).regs = s.regs := rfl
@[simp] theorem latchWrite_acc (s : State) (n : Nibble) : (latchWrite s n).acc = s.acc := rfl
@[simp] theorem latchWrite_cy (s : State) (n : Nibble) : (latchWrite s n).cy = s.cy := rfl
@[simp] theorem latchWrite_pc (s : State) (n : Nibble) : (latchWrite s n).pc = s.pc := rfl
@[simp] theorem latchWrite_stack (s : State) (n : Nibble) : (latchWrite s n).stack = s.stack := rfl
@[simp] theorem latchWrite_sp (s : State) (n : Nibble) : (latchWrite s n).sp = s.sp := rfl
@[simp] theorem latchWrite_ir (s : State) (n : Nibble) : (latchWrite s n).ir = s.ir := rfl
@[simp] theorem latchWrite_stage (s : State) (n : Nibble) : (latchWrite s n).stage = s.stage := rfl
@[simp] theorem latchWrite_cycle (s : State) (n : Nibble) : (latchWrite s n).cycle = s.cycle := rfl
@[simp] theorem latchWrite_wide (s : State) (n : Nibble) : (latchWrite s n).wide = s.wide := rfl
@[simp] theorem latchWrite_bus (s : State) (n : Nibble) : (latchWrite s n).bus = s.bus := rfl
@[simp] theorem latchWrite_addrLatch (s : State) (n : Nibble) : (latchWrite s n).addrLatch = (s.addrLatch >>> 4) ||| (n.setWidth 12 <<< 8) := rfl
@[simp] theorem latchWrite_nibblePhase (s : State) (n : Nibble) : (latchWrite s n).nibblePhase = s.nibblePhase := rfl
@[simp] theorem latchWrite_halted (s : State) (n : Nibble) : (latchWrite s n).halted = s.halted := rfl
@[simp] theorem latchWrite_ram (s : State) (n : Nibble) : (latchWrite s n).ram = s.ram := rfl
@[simp] theorem latchWrite_rom (s : State) (n : Nibble) : (latchWrite s n).rom = s.rom := rfl
@[simp] theorem latchWrite_romSizeBytes (s : State) (n : Nibble) : (latchWrite s n).romSizeBytes = s.romSizeBytes := rfl
@[simp] theorem getReg_latchWrite (s : State) (n : Nibble) (q : RegIx) : getReg (latchWrite s n) q = getReg s q := rfl
@[simp] theorem getPair_latchWrite (s : State) (n : Nibble) (q : PairIx) : getPair (latchWrite s n) q = getPair s q := rfl
@[simp] theorem romByte_latchWrite (s : State) (n : Nibble) (x : Addr) : romByte (latchWrite s n) x = romByte s x := rfl
/-! ### finished -/

/-! ### sendAddrNibble -/

@[simp] theorem sendAddrNibble_regs (s : State) (a : Addr) (k : Nat) : (sendAddrNibble s a k).regs = s.regs := rfl
@[simp] theorem sendAddrNibble_acc (s : State) (a : Addr) (k : Nat) : (sendAddrNibble s a k).acc = s.acc := rfl
@[simp] theorem sendAddrNibble_cy (s : State) (a : Addr) (k : Nat) : (sendAddrNibble s a k).cy = s.cy := rfl
@[simp] theorem sendAddrNibble_pc (s : State) (a : Addr) (k : Nat) : (sendAddrNibble s a k).pc = s.pc := rfl
@[simp] theorem sendAddrNibble_stack (s : State) (a : Addr) (k : Nat) : (sendAddrNibble s a k).stack = s.stack := rfl
@[simp] theorem sendAddrNibble_sp (s : State) (a : Addr) (k : Nat) : (sendAddrNibble s a k).sp = s.sp := rfl
@[simp] theorem sendAddrNibble_ir (s : State) (a : Addr) (k : Nat) : (sendAddrNibble s a k).ir = s.ir := rfl
@[simp] theorem sendAddrNibble_stage (s : State) (a : Addr) (k : Nat) : (sendAddrNibble s a k).stage = s.stage := rfl
@[simp] theorem sendAddrNibble_cycle (s : State) (a : Addr) (k : Nat) : (sendAddrNibble s a k).cycle = s.cycle := rfl
@[simp] theorem sendAddrNibble_wide (s : State) (a : Addr) (k : Nat) : (sendAddrNibble s a k).wide = s.wide := rfl
@[simp] theorem sendAddrNibble_bus (s : State) (a : Addr) (k : Nat) : (sendAddrNibble s a k).bus = addrNibble a k := rfl
@[simp] theorem sendAddrNibble_addrLatch (s : State) (a : Addr) (k : Nat) : (sendAddrNibble s a k).addrLatch = (s.addrLatch >>> 4) ||| ((addrNibble a k).setWidth 12 <<< 8) := rfl
@[simp] theorem sendAddrNibble_nibblePhase (s : State) (a : Addr) (k : Nat) : (sendAddrNibble s a k).nibblePhase = s.nibblePhase := rfl
@[simp] theorem sendAddrNibble_halted (s : State) (a : Addr) (k : Nat) : (sendAddrNibble s a k).halted = s.halted := rfl
@[simp] theorem sendAddrNibble_ram (s : State) (a : Addr) (k : Nat) : (sendAddrNibble s a k).ram = s.ram := rfl
@[simp] theorem sendAddrNibble_rom (s : State) (a : Addr) (k : Nat) : (sendAddrNibble s a k).rom = s.rom := rfl
@[simp] theorem sendAddrNibble_romSizeBytes (s : State) (a : Addr) (k : Nat) : (sendAddrNibble s a k).romSizeBytes = s.romSizeBytes := rfl
@[simp] theorem getReg_sendAddrNibble (s : State) (a : Addr) (k : Nat) (q : RegIx) : getReg (sendAddrNibble s a k) q = getReg s q := rfl
@[simp] theorem getPair_sendAddrNibble (s : State) (a : Addr) (k : Nat) (q : PairIx) : getPair (sendAddrNibble s a k) q = getPair s q := rfl
@[simp] theorem romByte_sendAddrNibble (s : State) (a : Addr) (k : Nat) (x : Addr) : romByte (sendAddrNibble s a k) x = romByte s x := rfl
/-! ### finished -/

/-! ### togglePhase -/

@[simp] theorem togglePhase_regs (s : State) : (togglePhase s).regs = s.regs := rfl
@[simp] theorem togglePhase_acc (s : State) : (togglePhase s).acc = s.acc := rfl
@[simp] theorem togglePhase_cy (s : State) : (togglePhase s).cy = s.cy := rfl
@[simp] theorem togglePhase_pc (s : State) : (togglePhase s).pc = s.pc := rfl
@[simp] theorem togglePhase_stack (s : State) : (togglePhase s).stack = s.stack := rfl
@[simp] theorem togglePhase_sp (s : State) : (togglePhase s).sp = s.sp := rfl
@[simp] theorem togglePhase_ir (s : State) : (togglePhase s).ir = s.ir := rfl
@[simp] theorem togglePhase_stage (s : State) : (togglePhase s).stage = s.stage := rfl
@[simp] theorem togglePhase_cycle (s : State) : (togglePhase s).cycle = s.cycle := rfl
@[simp] theorem togglePhase_wide (s : State) : (togglePhase s).wide = s.wide := rfl
@[simp] theorem togglePhase_bus (s : State) : (togglePhase s).bus = s.bus := rfl
@[simp] theorem togglePhase_addrLatch (s : State) : (togglePhase s).addrLatch = s.addrLatch := rfl
@[simp] theorem togglePhase_nibblePhase (s : State) : (togglePhase s).nibblePhase = 1#1 - s.nibblePhase := rfl
@[simp] theorem togglePhase_halted (s : State) : (togglePhase s).halted = s.halted := rfl
@[simp] theorem togglePhase_ram (s : State) : (togglePhase s).ram = s.ram := rfl
@[simp] theorem togglePhase_rom (s : State) : (togglePhase s).rom = s.rom := rfl
@[simp] theorem togglePhase_romSizeBytes (s : State) : (togglePhase s).romSizeBytes = s.romSizeBytes := rfl
@[simp] theorem getReg_togglePhase (s : State) (q : RegIx) : getReg (togglePhase s) q = getReg s q := rfl
@[simp] theorem getPair_togglePhase (s : State) (q : PairIx) : getPair (togglePhase s) q = getPair s q := rfl
@[simp] theorem romByte_togglePhase (s : State) (x : Addr) : romByte (togglePhase s) x = romByte s x := rfl
/-! ### finished -/

/-! ### setPc -/

@[simp] theorem setPc_regs (s : State) (a : Addr) : (setPc s a).regs = s.regs := rfl
@[simp] theorem setPc_acc (s : State) (a : Addr) : (setPc s a).acc = s.acc := rfl
@[simp] theorem setPc_cy (s : State) (a : Addr) : (setPc s a).cy = s.cy := rfl
@[simp] theorem setPc_pc (s : State) (a : Addr) : (setPc s a).pc = a := rfl
@[simp] theorem setPc_stack (s : State) (a : Addr) : (setPc s a).stack = s.stack := rfl
@[simp] theorem setPc_sp (s : State) (a : Addr) : (setPc s a).sp = s.sp := rfl
@[simp] theorem setPc_ir (s : State) (a : Addr) : (setPc s a).ir = s.ir := rfl
@[simp] theorem setPc_stage (s : State) (a : Addr) : (setPc s a).stage = s.stage := rfl
@[simp] theorem setPc_cycle (s : State) (a : Addr) : (setPc s a).cycle = s.cycle := rfl
@[simp] theorem setPc_wide (s : State) (a : Addr) : (setPc s a).wide = s.wide := rfl
@[simp] theorem setPc_bus (s : State) (a : Addr) : (setPc s a).bus = s.bus := rfl
@[simp] theorem setPc_addrLatch (s : State) (a : Addr) : (setPc s a).addrLatch = s.addrLatch := rfl
@[simp] theorem setPc_nibblePhase (s : State) (a : Addr) : (setPc s a).nibblePhase = s.nibblePhase := rfl
@[simp] theorem setPc_halted (s : State) (a : Addr) : (setPc s a).halted = s.halted := rfl
@[simp] theorem setPc_ram (s : State) (a : Addr) : (setPc s a).ram = s.ram := rfl
@[simp] theorem setPc_rom (s : State) (a : Addr) : (setPc s a).rom = s.rom := rfl
@[simp] theorem setPc_romSizeBytes (s : State) (a : Addr) : (setPc s a).romSizeBytes = s.romSizeBytes := rfl
@[simp] theorem getReg_setPc (s : State) (a : Addr) (q : RegIx) : getReg (setPc s a) q = getReg s q := rfl
@[simp] theorem getPair_setPc (s : State) (a : Addr) (q : PairIx) : getPair (setPc s a) q = getPair s q := rfl
@[simp] theorem romByte_setPc (s : State) (a : Addr) (x : Addr) : romByte (setPc s a) x = romByte s x := rfl
/-! ### finished -/

/-! ### jumpCommit -/

@[simp] theorem jumpCommit_regs (s : State) (t : Addr) : (jumpCommit s t).regs = s.regs := rfl
@[simp] theorem jumpCommit_acc (s : State) (t : Addr) : (jumpCommit s t).acc = s.acc := rfl
@[simp] theorem jumpCommit_cy (s : State) (t : Addr) : (jumpCommit s t).cy = s.cy := rfl
@[simp] theorem jumpCommit_pc (s : State) (t : Addr) : (jumpCommit s t).pc = t - 1#12 := rfl
@[simp] theorem jumpCommit_stack (s : State) (t : Addr) : (jumpCommit s t).stack = s.stack := rfl
@[simp] theorem jumpCommit_sp (s : State) (t : Addr) : (jumpCommit s t).sp = s.sp := rfl
@[simp] theorem jumpCommit_ir (s : State) (t : Addr) : (jumpCommit s t).ir = s.ir := rfl
@[simp] theorem jumpCommit_stage (s : State) (t : Addr) : (jumpCommit s t).stage = s.stage := rfl
@[simp] theorem jumpCommit_cycle (s : State) (t : Addr) : (jumpCommit s t).cycle = s.cycle := rfl
@[simp] theorem jumpCommit_wide (s : State) (t : Addr) : (jumpCommit s t).wide = s.wide := rfl
@[simp] theorem jumpCommit_bus (s : State) (t : Addr) : (jumpCommit s t).bus = s.bus := rfl
@[simp] theorem jumpCommit_addrLatch (s : State) (t : Addr) : (jumpCommit s t).addrLatch = s.addrLatch := rfl
@[simp] theorem jumpCommit_nibblePhase (s : State) (t : Addr) : (jumpCommit s t).nibblePhase = s.nibblePhase := rfl
@[simp] theorem jumpCommit_halted (s : State) (t : Addr) : (jumpCommit s t).halted = s.halted := rfl
@[simp] theorem jumpCommit_ram (s : State) (t : Addr) : (jumpCommit s t).ram = s.ram := rfl
@[simp] theorem jumpCommit_rom (s : State) (t : Addr) : (jumpCommit s t).rom = s.rom := rfl
@[simp] theorem jumpCommit_romSizeBytes (s : State) (t : Addr) : (jumpCommit s t).romSizeBytes = s.romSizeBytes := rfl
@[simp] theorem getReg_jumpCommit (s : State) (t : Addr) (q : RegIx) : getReg (jumpCommit s t) q = getReg s q := rfl
@[simp] theorem getPair_jumpCommit (s : State) (t : Addr) (q : PairIx) : getPair (jumpCommit s t) q = getPair s q := rfl
@[simp] theorem romByte_jumpCommit (s : State) (t : Addr) (x : Addr) : romByte (jumpCommit s t) x = romByte s x := rfl
/-! ### finished -/

/-! ### stackPush -/

@[simp] theorem stackPush_regs (s : State) (v : Addr) : (stackPush s v).regs = s.regs := rfl
@[simp] theorem stackPush_acc (s : State) (v : Addr) : (stackPush s v).acc = s.acc := rfl
@[simp] theorem stackPush_cy (s : State) (v : Addr) : (stackPush s v).cy = s.cy := rfl
@[simp] theorem stackPush_pc (s : State) (v : Addr) : (stackPush s v).pc = s.pc := rfl
@[simp] theorem stackPush_stack (s : State) (v : Addr) : (stackPush s v).stack = s.stack.set s.sp.val v s.sp.isLt := rfl
@[simp] theorem stackPush_sp (s : State) (v : Addr) : (stackPush s v).sp = nextSp s.sp := rfl
@[simp] theorem stackPush_ir (s : State) (v : Addr) : (stackPush s v).ir = s.ir := rfl
@[simp] theorem stackPush_stage (s : State) (v : Addr) : (stackPush s v).stage = s.stage := rfl
@[simp] theorem stackPush_cycle (s : State) (v : Addr) : (stackPush s v).cycle = s.cycle := rfl
@[simp] theorem stackPush_wide (s : State) (v : Addr) : (stackPush s v).wide = s.wide := rfl
@[simp] theorem stackPush_bus (s : State) (v : Addr) : (stackPush s v).bus = s.bus := rfl
@[simp] theorem stackPush_addrLatch (s : State) (v : Addr) : (stackPush s v).addrLatch = s.addrLatch := rfl
@[simp] theorem stackPush_nibblePhase (s : State) (v : Addr) : (stackPush s v).nibblePhase = s.nibblePhase := rfl
@[simp] theorem stackPush_halted (s : State) (v : Addr) : (stackPush s v).halted = s.halted := rfl
@[simp] theorem stackPush_ram (s : State) (v : Addr) : (stackPush s v).ram = s.ram := rfl
@[simp] theorem stackPush_rom (s : State) (v : Addr) : (stackPush s v).rom = s.rom := rfl
@[simp] theorem stackPush_romSizeBytes (s : State) (v : Addr) : (stackPush s v).romSizeBytes = s.romSizeBytes := rfl
@[simp] theorem getReg_stackPush (s : State) (v : Addr) (q : RegIx) : getReg (stackPush s v) q = getReg s q := rfl
@[simp] theorem getPair_stackPush (s : State) (v : Addr) (q : PairIx) : getPair (stackPush s v) q = getPair s q := rfl
@[simp] theorem romByte_stackPush (s : State) (v : Addr) (x : Addr) : romByte (stackPush s v) x = romByte s x := rfl
/-! ### finished -/

/-! ### armWide -/

@[simp] theorem armWide_regs (s : State) (opr opa : Nibble) : (armWide s opr opa).regs = s.regs := rfl
@[simp] theorem armWide_acc (s : State) (opr opa : Nibble) : (armWide s opr opa).acc = s.acc := rfl
@[simp] theorem armWide_cy (s : State) (opr opa : Nibble) : (armWide s opr opa).cy = s.cy := rfl
@[simp] theorem armWide_pc (s : State) (opr opa : Nibble) : (armWide s opr opa).pc = s.pc := rfl
@[simp] theorem armWide_stack (s : State) (opr opa : Nibble) : (armWide s opr opa).stack = s.stack := rfl
@[simp] theorem armWide_sp (s : State) (opr opa : Nibble) : (armWide s opr opa).sp = s.sp := rfl
@[simp] theorem armWide_ir (s : State) (opr opa : Nibble) : (armWide s opr opa).ir = s.ir := rfl
@[simp] theorem armWide_stage (s : State) (opr opa : Nibble) : (armWide s opr opa).stage = s.stage := rfl
@[simp] theorem armWide_cycle (s : State) (opr opa : Nibble) : (armWide s opr opa).cycle = s.cycle := rfl
@[simp] theorem armWide_wide (s : State) (opr opa : Nibble) : (armWide s opr opa).wide = { pending := true, opr := opr, opa := opa } := rfl
@[simp] theorem armWide_bus (s : State) (opr opa : Nibble) : (armWide s opr opa).bus = s.bus := rfl
@[simp] theorem armWide_addrLatch (s : State) (opr opa : Nibble) : (armWide s opr opa).addrLatch = s.addrLatch := rfl
@[simp] theorem armWide_nibblePhase (s : State) (opr opa : Nibble) : (armWide s opr opa).nibblePhase = s.nibblePhase := rfl
@[simp] theorem armWide_halted (s : State) (opr opa : Nibble) : (armWide s opr opa).halted = s.halted := rfl
@[simp] theorem armWide_ram (s : State) (opr opa : Nibble) : (armWide s opr opa).ram = s.ram := rfl
@[simp] theorem armWide_rom (s : State) (opr opa : Nibble) : (armWide s opr opa).rom = s.rom := rfl
@[simp] theorem armWide_romSizeBytes (s : State) (opr opa : Nibble) : (armWide s opr opa).romSizeBytes = s.romSizeBytes := rfl
@[simp] theorem getReg_armWide (s : State) (opr opa : Nibble) (q : RegIx) : getReg (armWide s opr opa) q = getReg s q := rfl
@[simp] theorem getPair_armWide (s : State) (opr opa : Nibble) (q : PairIx) : getPair (armWide s opr opa) q = getPair s q := rfl
@[simp] theorem romByte_armWide (s : State) (opr opa : Nibble) (x : Addr) : romByte (armWide s opr opa) x = romByte s x := rfl
/-! ### finished -/

/-! ### clearWide -/

@[simp] theorem clearWide_regs (s : State) : (clearWide s).regs = s.regs := rfl
@[simp] theorem clearWide_acc (s : State) : (clearWide s).acc = s.acc := rfl
@[simp] theorem clearWide_cy (s : State) : (clearWide s).cy = s.cy := rfl
@[simp] theorem clearWide_pc (s : State) : (clearWide s).pc = s.pc := rfl
@[simp] theorem clearWide_stack (s : State) : (clearWide s).stack = s.stack := rfl
@[simp] theorem clearWide_sp (s : State) : (clearWide s).sp = s.sp := rfl
@[simp] theorem clearWide_ir (s : State) : (clearWide s).ir = s.ir := rfl
@[simp] theorem clearWide_stage (s : State) : (clearWide s).stage = s.stage := rfl
@[simp] theorem clearWide_cycle (s : State) : (clearWide s).cycle = s.cycle := rfl
@[simp] theorem clearWide_wide (s : State) : (clearWide s).wide = { s.wide with pending := false } := rfl
@[simp] theorem clearWide_bus (s : State) : (clearWide s).bus = s.bus := rfl
@[simp] theorem clearWide_addrLatch (s : State) : (clearWide s).addrLatch = s.addrLatch := rfl
@[simp] theorem clearWide_nibblePhase (s : State) : (clearWide s).nibblePhase = s.nibblePhase := rfl
@[simp] theorem clearWide_halted (s : State) : (clearWide s).halted = s.halted := rfl
@[simp] theorem clearWide_ram (s : State) : (clearWide s).ram = s.ram := rfl
@[simp] theorem clearWide_rom (s : State) : (clearWide s).rom = s.rom := rfl
@[simp] theorem clearWide_romSizeBytes (s : State) : (clearWide s).romSizeBytes = s.romSizeBytes := rfl
@[simp] theorem getReg_clearWide (s : State) (q : RegIx) : getReg (clearWide s) q = getReg s q := rfl
@[simp] theorem getPair_clearWide (s : State) (q : PairIx) : getPair (clearWide s) q = getPair s q := rfl
@[simp] theorem romByte_clearWide (s : State) (x : Addr) : romByte (clearWide s) x = romByte s x := rfl
/-! ### finished -/

/-! ### shiftIr -/

@[simp] theorem shiftIr_regs (s : State) : (shiftIr s).regs = s.regs := rfl
@[simp] theorem shiftIr_acc (s : State) : (shiftIr s).acc = s.acc := rfl
@[simp] theorem shiftIr_cy (s : State) : (shiftIr s).cy = s.cy := rfl
@[simp] theorem shiftIr_pc (s : State) : (shiftIr s).pc = s.pc := rfl
@[simp] theorem shiftIr_stack (s : State) : (shiftIr s).stack = s.stack := rfl
@[simp] theorem shiftIr_sp (s : State) : (shiftIr s).sp = s.sp := rfl
@[simp] theorem shiftIr_ir (s : State) : (shiftIr s).ir = (s.ir <<< 4) ||| s.bus.setWidth 8 := rfl
@[simp] theorem shiftIr_stage (s : State) : (shiftIr s).stage = s.stage := rfl
@[simp] theorem shiftIr_cycle (s : State) : (shiftIr s).cycle = s.cycle := rfl
@[simp] theorem shiftIr_wide (s : State) : (shiftIr s).wide = s.wide := rfl
@[simp] theorem shiftIr_bus (s : State) : (shiftIr s).bus = s.bus := rfl
@[simp] theorem shiftIr_addrLatch (s : State) : (shiftIr s).addrLatch = s.addrLatch := rfl
@[simp] theorem shiftIr_nibblePhase (s : State) : (shiftIr s).nibblePhase = s.nibblePhase := rfl
@[simp] theorem shiftIr_halted (s : State) : (shiftIr s).halted = s.halted := rfl
@[simp] theorem shiftIr_ram (s : State) : (shiftIr s).ram = s.ram := rfl
@[simp] theorem shiftIr_rom (s : State) : (shiftIr s).rom = s.rom := rfl
@[simp] theorem shiftIr_romSizeBytes (s : State) : (shiftIr s).romSizeBytes = s.romSizeBytes := rfl
@[simp] theorem getReg_shiftIr (s : State) (q : RegIx) : getReg (shiftIr s) q = getReg s q := rfl
@[simp] theorem getPair_shiftIr (s : State) (q : PairIx) : getPair (shiftIr s) q = getPair s q := rfl
@[simp] theorem romByte_shiftIr (s : State) (x : Addr) : romByte (shiftIr s) x = romByte s x := rfl
/-! ### finished -/

/-! ### advanceCycle -/

@[simp] theorem advanceCycle_regs (s : State) : (advanceCycle s).regs = s.regs := rfl
@[simp] theorem advanceCycle_acc (s : State) : (advanceCycle s).acc = s.acc := rfl
@[simp] theorem advanceCycle_cy (s : State) : (advanceCycle s).cy = s.cy := rfl
@[simp] theorem advanceCycle_pc (s : State) : (advanceCycle s).pc = s.pc := rfl
@[simp] theorem advanceCycle_stack (s : State) : (advanceCycle s).stack = s.stack := rfl
@[simp] theorem advanceCycle_sp (s : State) : (advanceCycle s).sp = s.sp := rfl
@[simp] theorem advanceCycle_ir (s : State) : (advanceCycle s).ir = s.ir := rfl
@[simp] theorem advanceCycle_stage (s : State) : (advanceCycle s).stage = stageOfCycle (s.cycle + 1) := rfl
@[simp] theorem advanceCycle_cycle (s : State) : (advanceCycle s).cycle = s.cycle + 1 := rfl
@[simp] theorem advanceCycle_wide (s : State) : (advanceCycle s).wide = s.wide := rfl
@[simp] theorem advanceCycle_bus (s : State) : (advanceCycle s).bus = s.bus := rfl
@[simp] theorem advanceCycle_addrLatch (s : State) : (advanceCycle s).addrLatch = s.addrLatch := rfl
@[simp] theorem advanceCycle_nibblePhase (s : State) : (advanceCycle s).nibblePhase = s.nibblePhase := rfl
@[simp] theorem advanceCycle_halted (s : State) : (advanceCycle s).halted = s.halted := rfl
@[simp] theorem advanceCycle_ram (s : State) : (advanceCycle s).ram = s.ram := rfl
@[simp] theorem advanceCycle_rom (s : State) : (advanceCycle s).rom = s.rom := rfl
@[simp] theorem advanceCycle_romSizeBytes (s : State) : (advanceCycle s).romSizeBytes = s.romSizeBytes := rfl
@[simp] theorem getReg_advanceCycle (s : State) (q : RegIx) : getReg (advanceCycle s) q = getReg s q := rfl
@[simp] theorem getPair_advanceCycle (s : State) (q : PairIx) : getPair (advanceCycle s) q = getPair s q := rfl
@[simp] theorem romByte_advanceCycle (s : State) (x : Addr) : romByte (advanceCycle s) x = romByte s x := rfl
/-! ### finished -/

/-! ### endOfInstructionCycle -/

@[simp] theorem endOfInstructionCycle_regs (s : State) : (endOfInstructionCycle s).regs = s.regs := rfl
@[simp] theorem endOfInstructionCycle_acc (s : State) : (endOfInstructionCycle s).acc = s.acc := rfl
@[simp] theorem endOfInstructionCycle_cy (s : State) : (endOfInstructionCycle s).cy = s.cy := rfl
@[simp] theorem endOfInstructionCycle_pc (s : State) : (endOfInstructionCycle s).pc = s.pc + 1#12 := rfl
@[simp] theorem endOfInstructionCycle_stack (s : State) : (endOfInstructionCycle s).stack = s.stack := rfl
@[simp] theorem endOfInstructionCycle_sp (s : State) : (endOfInstructionCycle s).sp = s.sp := rfl
@[simp] theorem endOfInstructionCycle_ir (s : State) : (endOfInstructionCycle s).ir = s.ir := rfl
@[simp] theorem endOfInstructionCycle_stage (s : State) : (endOfInstructionCycle s).stage = .fetchAddr := rfl
@[simp] theorem endOfInstructionCycle_cycle (s : State) : (endOfInstructionCycle s).cycle = 0 := rfl
@[simp] theorem endOfInstructionCycle_wide (s : State) : (endOfInstructionCycle s).wide = s.wide := rfl
@[simp] theorem endOfInstructionCycle_bus (s : State) : (endOfInstructionCycle s).bus = s.bus := rfl
@[simp] theorem endOfInstructionCycle_addrLatch (s : State) : (endOfInstructionCycle s).addrLatch = s.addrLatch := rfl
@[simp] theorem endOfInstructionCycle_nibblePhase (s : State) : (endOfInstructionCycle s).nibblePhase = s.nibblePhase := rfl
@[simp] theorem endOfInstructionCycle_halted (s : State) : (endOfInstructionCycle s).halted = s.halted := rfl
@[simp] theorem endOfInstructionCycle_ram (s : State) : (endOfInstructionCycle s).ram = s.ram := rfl
@[simp] theorem endOfInstructionCycle_rom (s : State) : (endOfInstructionCycle s).rom = s.rom := rfl
@[simp] theorem endOfInstructionCycle_romSizeBytes (s : State) : (endOfInstructionCycle s).romSizeBytes = s.romSizeBytes := rfl
@[simp] theorem getReg_endOfInstructionCycle (s : State) (q : RegIx) : getReg (endOfInstructionCycle s) q = getReg s q := rfl
@[simp] theorem getPair_endOfInstructionCycle (s : State) (q : PairIx) : getPair (endOfInstructionCycle s) q = getPair s q := rfl
@[simp] theorem romByte_endOfInstructionCycle (s : State) (x : Addr) : romByte (endOfInstructionCycle s) x = romByte s x := rfl
/-! ### finished -/

/-! ### fetched -/

@[simp] theorem fetched_regs (s : State) : (fetched s).regs = s.regs := rfl
@[simp] theorem fetched_acc (s : State) : (fetched s).acc = s.acc := rfl
@[simp] theorem fetched_cy (s : State) : (fetched s).cy = s.cy := rfl
@[simp] theorem fetched_pc (s : State) : (fetched s).pc = s.pc := rfl
@[simp] theorem fetched_stack (s : State) : (fetched s).stack = s.stack := rfl
@[simp] theorem fetched_sp (s : State) : (fetched s).sp = s.sp := rfl
@[simp] theorem fetched_ir (s : State) : (fetched s).ir = romByte s s.pc := rfl
@[simp] theorem fetched_stage (s : State) : (fetched s).stage = .execute := rfl
@[simp] theorem fetched_cycle (s : State) : (fetched s).cycle = 5 := rfl
@[simp] theorem fetched_wide (s : State) : (fetched s).wide = s.wide := rfl
@[simp] theorem fetched_bus (s : State) : (fetched s).bus = loNibble (romByte s s.pc) := rfl
@[simp] theorem fetched_addrLatch (s : State) : (fetched s).addrLatch = s.pc := rfl
@[simp] theorem fetched_nibblePhase (s : State) : (fetched s).nibblePhase = s.nibblePhase := rfl
@[simp] theorem fetched_halted (s : State) : (fetched s).halted = s.halted := rfl
@[simp] theorem fetched_ram (s : State) : (fetched s).ram = s.ram := rfl
@[simp] theorem fetched_rom (s : State) : (fetched s).rom = s.rom := rfl
@[simp] theorem fetched_romSizeBytes (s : State) : (fetched s).romSizeBytes = s.romSizeBytes := rfl
@[simp] theorem getReg_fetched (s : State) (q : RegIx) : getReg (fetched s) q = getReg s q := rfl
@[simp] theorem getPair_fetched (s : State) (q : PairIx) : getPair (fetched s) q = getPair s q := rfl
@[simp] theorem romByte_fetched (s : State) (x : Addr) : romByte (fetched s) x = romByte s x := rfl
/-! ### finished -/

/-! ### assertReset -/

@[simp] theorem assertReset_regs (s : State) : (assertReset s).regs = Vector.replicate 16 0#4 := rfl
@[simp] theorem assertReset_acc (s : State) : (assertReset s).acc = 0#4 := rfl
@[simp] theorem assertReset_cy (s : State) : (assertReset s).cy = false := rfl
@[simp] theorem assertReset_pc (s : State) : (assertReset s).pc = 0#12 := rfl
@[simp] theorem assertReset_stack (s : State) : (assertReset s).stack = Vector.replicate 3 0#12 := rfl
@[simp] theorem assertReset_sp (s : State) : (assertReset s).sp = 0 := rfl
@[simp] theorem assertReset_ir (s : State) : (assertReset s).ir = 0#8 := rfl
@[simp] theorem assertReset_stage (s : State) : (assertReset s).stage = .fetchAddr := rfl
@[simp] theorem assertReset_cycle (s : State) : (assertReset s).cycle = 0 := rfl
@[simp] theorem assertReset_wide (s : State) : (assertReset s).wide = { pending := false, opr := 0#4, opa := 0#4 } := rfl
@[simp] theorem assertReset_bus (s : State) : (assertReset s).bus = 0#4 := rfl
@[simp] theorem assertReset_addrLatch (s : State) : (assertReset s).addrLatch = 0#12 := rfl
@[simp] theorem assertReset_nibblePhase (s : State) : (assertReset s).nibblePhase = 0#1 := rfl
@[simp] theorem assertReset_halted (s : State) : (assertReset s).halted = false := rfl
@[simp] theorem assertReset_ram (s : State) : (assertReset s).ram = Ram.zero := rfl
@[simp] theorem assertReset_rom (s : State) : (assertReset s).rom = s.rom := rfl
@[simp] theorem assertReset_romSizeBytes (s : State) : (assertReset s).romSizeBytes = s.romSizeBytes := rfl
@[simp] theorem romByte_assertReset (s : State) (x : Addr) : romByte (assertReset s) x = romByte s x := rfl
/-! ### finished -/

/-! ### loadImage -/

@[simp] theorem loadImage_regs (s : State) (image : List Byte) : (loadImage s image).regs = s.regs := rfl
@[simp] theorem loadImage_acc (s : State) (image : List Byte) : (loadImage s image).acc = s.acc := rfl
@[simp] theorem loadImage_cy (s : State) (image : List Byte) : (loadImage s image).cy = s.cy := rfl
@[simp] theorem loadImage_pc (s : State) (image : List Byte) : (loadImage s image).pc = s.pc := rfl
@[simp] theorem loadImage_stack (s : State) (image : List Byte) : (loadImage s image).stack = s.stack := rfl
@[simp] theorem loadImage_sp (s : State) (image : List Byte) : (loadImage s image).sp = s.sp := rfl
@[simp] theorem loadImage_ir (s : State) (image : List Byte) : (loadImage s image).ir = s.ir := rfl
@[simp] theorem loadImage_stage (s : State) (image : List Byte) : (loadImage s image).stage = s.stage := rfl
@[simp] theorem loadImage_cycle (s : State) (image : List Byte) : (loadImage s image).cycle = s.cycle := rfl
@[simp] theorem loadImage_wide (s : State) (image : List Byte) : (loadImage s image).wide = s.wide := rfl
@[simp] theorem loadImage_bus (s : State) (image : List Byte) : (loadImage s image).bus = s.bus := rfl
@[simp] theorem loadImage_addrLatch (s : State) (image : List Byte) : (loadImage s image).addrLatch = s.addrLatch := rfl
@[simp] theorem loadImage_nibblePhase (s : State) (image : List Byte) : (loadImage s image).nibblePhase = s.nibblePhase := rfl
@[simp] theorem loadImage_halted (s : State) (image : List Byte) : (loadImage s image).halted = s.halted := rfl
@[simp] theorem loadImage_ram (s : State) (image : List Byte) : (loadImage s image).ram = s.ram := rfl
@[simp] theorem loadImage_rom (s : State) (image : List Byte) : (loadImage s image).rom = Memory.load [] 0 image := rfl
@[simp] theorem loadImage_romSizeBytes (s : State) (image : List Byte) : (loadImage s image).romSizeBytes = imageSize image := rfl
@[simp] theorem getReg_loadImage (s : State) (image : List Byte) (q : RegIx) : getReg (loadImage s image) q = getReg s q := rfl
@[simp] theorem getPair_loadImage (s : State) (image : List Byte) (q : PairIx) : getPair (loadImage s image) q = getPair s q := rfl
/-! ### finished -/

/-! ### runEndCheck -/

@[simp] theorem runEndCheck_regs (s : State) : (runEndCheck s).regs = s.regs := rfl
@[simp] theorem runEndCheck_acc (s : State) : (runEndCheck s).acc = s.acc := rfl
@[simp] theorem runEndCheck_cy (s : State) : (runEndCheck s).cy = s.cy := rfl
@[simp] theorem runEndCheck_pc (s : State) : (runEndCheck s).pc = s.pc := rfl
@[simp] theorem runEndCheck_stack (s : State) : (runEndCheck s).stack = s.stack := rfl
@[simp] theorem runEndCheck_sp (s : State) : (runEndCheck s).sp = s.sp := rfl
@[simp] theorem runEndCheck_ir (s : State) : (runEndCheck s).ir = s.ir := rfl
@[simp] theorem runEndCheck_stage (s : State) : (runEndCheck s).stage = s.stage := rfl
@[simp] theorem runEndCheck_cycle (s : State) : (runEndCheck s).cycle = s.cycle := rfl
@[simp] theorem runEndCheck_wide (s : State) : (runEndCheck s).wide = s.wide := rfl
@[simp] theorem runEndCheck_bus (s : State) : (runEndCheck s).bus = s.bus := rfl
@[simp] theorem runEndCheck_addrLatch (s : State) : (runEndCheck s).addrLatch = s.addrLatch := rfl
@[simp] theorem runEndCheck_nibblePhase (s : State) : (runEndCheck s).nibblePhase = s.nibblePhase := rfl
@[simp] theorem runEndCheck_halted (s : State) : (runEndCheck s).halted = (s.halted || pastEnd s) := rfl
@[simp] theorem runEndCheck_ram (s : State) : (runEndCheck s).ram = s.ram := rfl
@[simp] theorem runEndCheck_rom (s : State) : (runEndCheck s).rom = s.rom := rfl
@[simp] theorem runEndCheck_romSizeBytes (s : State) : (runEndCheck s).romSizeBytes = s.romSizeBytes := rfl
@[simp] theorem getReg_runEndCheck (s : State) (q : RegIx) : getReg (runEndCheck s) q = getReg s q := rfl
@[simp] theorem getPair_runEndCheck (s : State) (q : PairIx) : getPair (runEndCheck s) q = getPair s q := rfl
@[simp] theorem romByte_runEndCheck (s : State) (x : Addr) : romByte (runEndCheck s) x = romByte s x := rfl
/-! ### finished -/

@[simp] theorem finished_regs (s : State) : (finished s).regs = s.regs := by
  unfold finished; split <;> rfl
@[simp] theorem finished_acc (s : State) : (finished s).acc = s.acc := by
  unfold finished; split <;> rfl
@[simp] theorem finished_cy (s : State) : (finished s).cy = s.cy := by
  unfold finished; split <;> rfl
@[simp] theorem finished_stack (s : State) : (finished s).stack = s.stack := by
  unfold finished; split <;> rfl
@[simp] theorem finished_sp (s : State) : (finished s).sp = s.sp := by
  unfold finished; split <;> rfl
@[simp] theorem finished_ir (s : State) : (finished s).ir = s.ir := by
  unfold finished; split <;> rfl
@[simp] theorem finished_wide (s : State) : (finished s).wide = s.wide := by
  unfold finished; split <;> rfl
@[simp] theorem finished_bus (s : State) : (finished s).bus = s.bus := by
  unfold finished; split <;> rfl
@[simp] theorem finished_addrLatch (s : State) : (finished s).addrLatch = s.addrLatch := by
  unfold finished; split <;> rfl
@[simp] theorem finished_nibblePhase (s : State) : (finished s).nibblePhase = s.nibblePhase := by
  unfold finished; split <;> rfl
@[simp] theorem finished_ram (s : State) : (finished s).ram = s.ram := by
  unfold finished; split <;> rfl
@[simp] theorem finished_rom (s : State) : (finished s).rom = s.rom := by
  unfold finished; split <;> rfl
@[simp] theorem finished_romSizeBytes (s : State) : (finished s).romSizeBytes = s.romSizeBytes := by
  unfold finished; split <;> rfl

end Sys2Proof.Machine
end

