-- ==== Sys2Proof/Laws/Ops.lean ====
section
/-! SUPPORT. One lemma per shared operation: what it answers, in a form later proofs cite instead of unfolding it. -/

namespace Sys2Proof.Machine

/-! ### Sequencing -/

@[simp] theorem andThen_next {α β φ ρ : Type} (a : α) (f : α → Host.Outcome β φ ρ) : andThen (.next a) f = f a := rfl

@[simp] theorem andThen_fault {α β φ ρ : Type} (r : φ) (f : α → Host.Outcome β φ ρ) :
    andThen (.fault r : Host.Outcome α φ ρ) f = .fault r := rfl

@[simp] theorem andThen_refused {α β φ ρ : Type} (r : ρ) (f : α → Host.Outcome β φ ρ) :
    andThen (.refused r : Host.Outcome α φ ρ) f = .refused r := rfl

/-- A sequence answers a next state only through one. -/
theorem andThen_eq_next {α β φ ρ : Type} {o : Host.Outcome α φ ρ} {f : α → Host.Outcome β φ ρ} {b : β}
    (h : andThen o f = .next b) : ∃ a, o = .next a ∧ f a = .next b := by
  cases o with
  | next a => exact ⟨a, rfl, h⟩
  | fault r => simp at h
  | refused r => simp at h

theorem andThen_assoc {α β γ φ ρ : Type} (o : Host.Outcome α φ ρ) (f : α → Host.Outcome β φ ρ)
    (g : β → Host.Outcome γ φ ρ) : andThen (andThen o f) g = andThen o fun a => andThen (f a) g := by
  cases o <;> rfl

/-! ### Registers -/

@[simp] theorem getReg_setReg_same (s : State) (r : RegIx) (v : Nibble) : getReg (setReg s r v) r = v := by
  simp [getReg, setReg, Vector.get_eq_getElem]

@[simp] theorem getReg_setReg_other (s : State) {r q : RegIx} (v : Nibble) (h : q ≠ r) :
    getReg (setReg s r v) q = getReg s q := by
  have : r.val ≠ q.val := fun e => h (Fin.ext e.symm)
  simp [getReg, setReg, Vector.get_eq_getElem, this]

@[simp] theorem evenReg_val (p : PairIx) : (evenReg p).val = 2 * p.val := rfl

@[simp] theorem oddReg_val (p : PairIx) : (oddReg p).val = 2 * p.val + 1 := rfl

@[simp] theorem evenReg_ne_oddReg (p : PairIx) : evenReg p ≠ oddReg p := by
  intro e; have := congrArg Fin.val e; simp at this

@[simp] theorem oddReg_ne_evenReg (p : PairIx) : oddReg p ≠ evenReg p := (evenReg_ne_oddReg p).symm

@[simp] theorem getReg_setPair_even (s : State) (p : PairIx) (b : Byte) :
    getReg (setPair s p b) (evenReg p) = hiNibble b := by
  simp [setPair]

@[simp] theorem getReg_setPair_odd (s : State) (p : PairIx) (b : Byte) :
    getReg (setPair s p b) (oddReg p) = loNibble b := by
  simp [setPair]

@[simp] theorem getReg_setPair_other (s : State) {p : PairIx} {q : RegIx} (b : Byte)
    (he : q ≠ evenReg p) (ho : q ≠ oddReg p) : getReg (setPair s p b) q = getReg s q := by
  simp [setPair, he, ho]

/-- Reading registers looks at the register file only. -/
theorem getReg_congr {s t : State} (h : t.regs = s.regs) (q : RegIx) : getReg t q = getReg s q := by
  simp [getReg, h]

/-- Reading program memory looks at program memory only. -/
theorem romByte_congr {s t : State} (h : t.rom = s.rom) (a : Addr) : romByte t a = romByte s a := by
  simp [romByte, h]

/-! ### The bus, the latch and the chips -/

/-- The latch never addresses an absent bank (R46, R120). -/
theorem addrTop_lt_numRomBanks (a : Addr) : ¬ Config.numRomBanks ≤ (addrTop a).toNat := by
  have := (addrTop a).isLt
  simp only [Config.numRomBanks]; omega

/-- A chip read always answers, and this is all it does (R45, R46). -/
theorem chipReadToBus_eq (s : State) : chipReadToBus s = .next (driveBus (togglePhase s) (chipNibble s)) := by
  simp only [chipReadToBus, if_neg (addrTop_lt_numRomBanks s.addrLatch)]

theorem chipNibble_of_phase_zero {s : State} (h : s.nibblePhase = 0#1) :
    chipNibble s = hiNibble (romByte s s.addrLatch) := by
  simp [chipNibble, h]

theorem chipNibble_of_phase_one {s : State} (h : s.nibblePhase = 1#1) :
    chipNibble s = loNibble (romByte s s.addrLatch) := by
  simp [chipNibble, h]

/-- Bit `j` of an address nibble (R48). -/
theorem addrNibble_getLsbD (a : Addr) (k j : Nat) (hj : j < 4) : (addrNibble a k).getLsbD j = a.getLsbD (4 * k + j) := by
  simp [addrNibble, hj]

/-- The first of three address transfers puts its nibble at the top of the latch (R44, R78). -/
theorem latch_after_first (s : State) (a : Addr) : addrNibble (sendAddrNibble s a 0).addrLatch 2 = addrNibble a 0 := by
  simp only [sendAddrNibble_addrLatch]
  apply BitVec.eq_of_getLsbD_eq
  intro j hj
  interval_cases j <;> simp [addrNibble]

/-- The second moves it down and puts its own at the top. -/
theorem latch_after_second {s : State} {a : Addr} (h : addrNibble s.addrLatch 2 = addrNibble a 0) :
    addrNibble (sendAddrNibble s a 1).addrLatch 1 = addrNibble a 0 ∧
    addrNibble (sendAddrNibble s a 1).addrLatch 2 = addrNibble a 1 := by
  simp only [sendAddrNibble_addrLatch, ← h]
  constructor <;>
    · apply BitVec.eq_of_getLsbD_eq
      intro j hj
      interval_cases j <;> simp [addrNibble]

/-- The third completes the address. -/
theorem latch_after_third {s : State} {a : Addr}
    (h : addrNibble s.addrLatch 1 = addrNibble a 0 ∧ addrNibble s.addrLatch 2 = addrNibble a 1) :
    (sendAddrNibble s a 2).addrLatch = a := by
  have bit : ∀ k j, j < 4 → s.addrLatch.getLsbD (4 * k + j) = (addrNibble s.addrLatch k).getLsbD j :=
    fun k j hj => (addrNibble_getLsbD _ _ _ hj).symm
  have low : ∀ j, j < 4 → s.addrLatch.getLsbD (4 * 1 + j) = a.getLsbD (4 * 0 + j) :=
    fun j hj => (bit 1 j hj).trans (by rw [h.1]; exact addrNibble_getLsbD a 0 j hj)
  have mid : ∀ j, j < 4 → s.addrLatch.getLsbD (4 * 2 + j) = a.getLsbD (4 * 1 + j) :=
    fun j hj => (bit 2 j hj).trans (by rw [h.2]; exact addrNibble_getLsbD a 1 j hj)
  have l0 := low 0 (by omega)
  have l1 := low 1 (by omega)
  have l2 := low 2 (by omega)
  have l3 := low 3 (by omega)
  have m0 := mid 0 (by omega)
  have m1 := mid 1 (by omega)
  have m2 := mid 2 (by omega)
  have m3 := mid 3 (by omega)
  simp only [sendAddrNibble_addrLatch]
  apply BitVec.eq_of_getLsbD_eq
  intro j hj
  interval_cases j <;> simp_all [addrNibble]

/-- Three address transfers, least significant nibble first, leave the address in the latch, whatever it held (R44, R48). -/
theorem sendAddr_three (s : State) (a : Addr) :
    sendAddrNibble (sendAddrNibble (sendAddrNibble s a 0) a 1) a 2 = { s with addrLatch := a, bus := addrTop a } := by
  have hl : (sendAddrNibble (sendAddrNibble (sendAddrNibble s a 0) a 1) a 2).addrLatch = a := by
    simp only [sendAddrNibble_addrLatch]
    apply BitVec.eq_of_getLsbD_eq
    intro j hj
    interval_cases j <;> simp [addrNibble]
  have hb : addrNibble a 2 = addrTop a := by
    apply BitVec.eq_of_getLsbD_eq
    intro j hj
    rw [addrNibble_getLsbD _ _ _ hj]
    simp [addrTop, hj]
  apply State.ext <;> simp only [sendAddrNibble_regs, sendAddrNibble_acc, sendAddrNibble_cy, sendAddrNibble_pc,
    sendAddrNibble_stack, sendAddrNibble_sp, sendAddrNibble_ir, sendAddrNibble_stage, sendAddrNibble_cycle,
    sendAddrNibble_wide, sendAddrNibble_bus, sendAddrNibble_nibblePhase, sendAddrNibble_halted, sendAddrNibble_ram,
    sendAddrNibble_rom, sendAddrNibble_romSizeBytes, hl, hb]

/-- Two shifts of the instruction register leave nothing of what it held: the first nibble ends in OPR, the second in OPA
(R49, R79). -/
theorem ir_after_two_shifts (ir : Byte) (h l : Nibble) :
    ((((ir <<< 4) ||| h.setWidth 8) <<< 4) ||| l.setWidth 8 : Byte) = joinNibbles h l := by
  apply BitVec.eq_of_getLsbD_eq
  intro j hj
  unfold joinNibbles
  rw [BitVec.getLsbD_append]
  interval_cases j <;> simp

/-! ### The run-end comparator -/

theorem pastEnd_eq_false {s : State} (h : s.pc.toNat < s.romSizeBytes.val) : pastEnd s = false := by
  simp [pastEnd, h]

theorem pastEnd_eq_true {s : State} (h : s.romSizeBytes.val ≤ s.pc.toNat) : pastEnd s = true := by
  simp [pastEnd, h]

/-- All the comparator does to a running core (R87). -/
theorem runEndCheck_of_running {s : State} (h : s.halted = false) :
    runEndCheck s = { s with halted := decide (s.romSizeBytes.val ≤ s.pc.toNat) } := by
  unfold runEndCheck pastEnd
  rw [h, Bool.false_or]

/-- Inside the image the comparator changes nothing (R87). -/
theorem runEndCheck_of_inside {s : State} (h : s.halted = false) (hpc : s.pc.toNat < s.romSizeBytes.val) :
    runEndCheck s = s := by
  have e : (s.halted || pastEnd s) = s.halted := by rw [h, pastEnd_eq_false hpc]; rfl
  simp only [runEndCheck, e]

end Sys2Proof.Machine
end

