-- ==== Sys2Proof/Laws/Exec.lean ====
section
/-! SUPPORT. One equation per meaning: what the decode step of each instruction answers, over the shared operations. -/

namespace Sys2Proof.Machine

/-- Two chip reads toggle the parity counter twice: only the bus is left changed (R45, R47). -/
theorem two_reads (s : State) (m n : Nibble) :
    driveBus (togglePhase (driveBus (togglePhase s) m)) n = { s with bus := n } := by
  have h2 : ∀ x : BitVec 1, 1#1 - (1#1 - x) = x := by decide
  exact State.ext rfl rfl rfl rfl rfl rfl rfl rfl rfl rfl rfl rfl (h2 s.nibblePhase) rfl rfl rfl rfl

/-- A memory read always answers; it changes the latch and the bus only (R47). -/
theorem memRead_next (s : State) (a : Addr) :
    ∃ b n, memRead s a = .next (b, { s with addrLatch := a, bus := n }) := by
  simp only [memRead, sendAddr_three, chipReadToBus_eq, andThen_next, two_reads]
  exact ⟨_, _, rfl⟩

@[simp] theorem exec_nop (x : Nibble) (s : State) : exec (.nop x) s = .next s := rfl
@[simp] theorem exec_rsv8 (x : Nibble) (s : State) : exec (.rsv8 x) s = .next s := rfl
@[simp] theorem exec_rsv9 (x : Nibble) (s : State) : exec (.rsv9 x) s = .next s := rfl
@[simp] theorem exec_rsva (x : Nibble) (s : State) : exec (.rsva x) s = .next s := rfl
@[simp] theorem exec_rsvb (x : Nibble) (s : State) : exec (.rsvb x) s = .next s := rfl
@[simp] theorem exec_rsvc (x : Nibble) (s : State) : exec (.rsvc x) s = .next s := rfl
@[simp] theorem exec_rsvd (x : Nibble) (s : State) : exec (.rsvd x) s = .next s := rfl
@[simp] theorem exec_rsve (x : Nibble) (s : State) : exec (.rsve x) s = .next s := rfl
@[simp] theorem exec_rsvf (x : Nibble) (s : State) : exec (.rsvf x) s = .next s := rfl

@[simp] theorem exec_fim (p : PairIx) (x : BitVec 1) (d8 : Byte) (s : State) :
    exec (.fim p x d8) s = .next (setPair s p d8) := rfl

theorem exec_fin (p : PairIx) (s : State) :
    exec (.fin p) s = andThen (memRead s (finAddress s)) fun r => .next (setPair r.2 p r.1) := rfl

/-- FIN always answers: a byte into its pair, the latch and the bus left by the read. -/
theorem exec_fin_next (p : PairIx) (s : State) :
    ∃ b n, exec (.fin p) s = .next (setPair { s with addrLatch := finAddress s, bus := n } p b) := by
  obtain ⟨b, n, h⟩ := memRead_next s (finAddress s)
  exact ⟨b, n, by simp only [exec_fin, h, andThen_next]⟩

@[simp] theorem exec_inc (r : RegIx) (s : State) : exec (.inc r) s = .next (setReg s r (incremented s r)) := rfl

/-- ISZ answers one of two next states (R112). -/
theorem exec_isz (r : RegIx) (a8 : Byte) (s : State) :
    exec (.isz r a8) s =
      if incremented s r = 0#4 then .next (setReg s r 0#4)
      else .next (jumpCommit (setReg s r (incremented s r)) (inPageTarget s a8)) := by
  show (if incremented s r = 0#4 then _ else _) = _
  split
  · rename_i h; rw [h]
  · rfl

/-- JCN answers one of two next states (R114). -/
theorem exec_jcn (cond : Nibble) (a8 : Byte) (s : State) :
    exec (.jcn cond a8) s = if jcnTaken s cond then .next (jumpCommit s (inPageTarget s a8)) else .next s := rfl

@[simp] theorem exec_jin (p : PairIx) (s : State) : exec (.jin p) s = .next (setPc s (jinTarget s p)) := rfl

@[simp] theorem exec_jun (a12 : Addr) (s : State) : exec (.jun a12) s = .next (jumpCommit s a12) := rfl

@[simp] theorem exec_jms (a12 : Addr) (s : State) :
    exec (.jms a12) s = .next (jumpCommit (stackPush s s.pc) a12) := rfl

end Sys2Proof.Machine
end

