-- ==== Sys2Proof/Laws/Cycle.lean ====
section
/-! SUPPORT. What a clock step is in each of the three stages (spec/40_instruction_cycle.md R77 to R81), what the decode step can
be (R82), and how runs of clock steps compose. -/

namespace Sys2Proof.Machine

/-! ### The clock step -/

theorem clockStep_of_halted {s : State} (h : s.halted = true) : clockStep s = .next s := by
  simp [clockStep, h]

/-- Clock cycles 0 to 2. -/
theorem clockStep_fetchAddr {s : State} (hh : s.halted = false) (ha : s.stageAgrees) (hs : s.stage = .fetchAddr) :
    clockStep s = .next (runEndCheck (stepA s)) := by
  unfold clockStep
  rw [if_neg (by simp [hh]), if_pos ha]
  simp [stageWork, hs]

/-- Clock cycles 3 and 4. -/
theorem clockStep_fetchInstr {s : State} (hh : s.halted = false) (ha : s.stageAgrees) (hs : s.stage = .fetchInstr) :
    clockStep s = .next (runEndCheck (advanceCycle (shiftIr (driveBus (togglePhase s) (chipNibble s))))) := by
  unfold clockStep
  rw [if_neg (by simp [hh]), if_pos ha]
  simp [stageWork, hs, stepM, chipReadToBus_eq]

/-- Clock cycle 5. -/
theorem clockStep_decode {s : State} (hh : s.halted = false) (ha : s.stageAgrees) (hc : s.cycle = 5) :
    clockStep s = andThen (decodeStep s) fun t => .next (runEndCheck (countX t)) := by
  have hs : s.stage = .execute := by rw [ha, hc]; decide
  unfold clockStep
  rw [if_neg (by simp [hh]), if_pos ha]
  simp [stageWork, hs, stepX, hc, andThen_assoc]

/-- Clock cycles 6 and 7. -/
theorem clockStep_count {s : State} (hh : s.halted = false) (ha : s.stageAgrees) (hc : s.cycle = 6 ∨ s.cycle = 7) :
    clockStep s = .next (runEndCheck (countX s)) := by
  have h5 : s.cycle ≠ 5 := by rcases hc with h | h <;> rw [h] <;> decide
  have hs : s.stage = .execute := by rw [ha]; rcases hc with h | h <;> rw [h] <;> decide
  unfold clockStep
  rw [if_neg (by simp [hh]), if_pos ha]
  simp [stageWork, hs, stepX, h5]

/-- The stage a cycle index belongs to, the other way round (R36 item 1). -/
theorem cycle_of_stage {s : State} (ha : s.stageAgrees) :
    (s.stage = .fetchAddr ∧ (s.cycle = 0 ∨ s.cycle = 1 ∨ s.cycle = 2)) ∨
    (s.stage = .fetchInstr ∧ (s.cycle = 3 ∨ s.cycle = 4)) ∨
    (s.stage = .execute ∧ (s.cycle = 5 ∨ s.cycle = 6 ∨ s.cycle = 7)) := by
  have hAll : ∀ c : Fin 8,
      (stageOfCycle c = .fetchAddr ∧ (c = 0 ∨ c = 1 ∨ c = 2)) ∨ (stageOfCycle c = .fetchInstr ∧ (c = 3 ∨ c = 4)) ∨
      (stageOfCycle c = .execute ∧ (c = 5 ∨ c = 6 ∨ c = 7)) := by decide
  have := hAll s.cycle
  rwa [← (show s.stage = stageOfCycle s.cycle from ha)] at this

/-- A clock step of a core that is not halted answers only where the stage agrees with the cycle (U10). -/
theorem stageAgrees_of_clockStep {s t : State} (hh : s.halted = false) (h : clockStep s = .next t) : s.stageAgrees := by
  by_contra hc
  unfold clockStep at h
  rw [if_neg (by simp [hh]), if_neg hc] at h
  simp at h

/-- What a clock step can be: of a halted core, nothing; else one of the five kinds of stage work, and the comparator (R77). -/
theorem clockStep_cases {s t : State} (h : clockStep s = .next t) :
    (s.halted = true ∧ t = s) ∨
    (s.halted = false ∧ s.stageAgrees ∧ ∃ u, t = runEndCheck u ∧
      ((s.stage = .fetchAddr ∧ u = stepA s) ∨
       (s.stage = .fetchInstr ∧ u = advanceCycle (shiftIr (driveBus (togglePhase s) (chipNibble s)))) ∨
       (s.cycle = 5 ∧ ∃ d, decodeStep s = .next d ∧ u = countX d) ∨
       (s.cycle = 6 ∧ u = advanceCycle s) ∨
       (s.cycle = 7 ∧ u = endOfInstructionCycle s))) := by
  cases hh : s.halted with
  | true =>
    rw [clockStep_of_halted hh] at h
    simp only [Host.Outcome.next.injEq] at h
    exact .inl ⟨rfl, h.symm⟩
  | false =>
    have ha := stageAgrees_of_clockStep hh h
    refine .inr ⟨rfl, ha, ?_⟩
    rcases cycle_of_stage ha with ⟨hs, _⟩ | ⟨hs, _⟩ | ⟨_, hc | hc | hc⟩
    · rw [clockStep_fetchAddr hh ha hs] at h
      simp only [Host.Outcome.next.injEq] at h
      exact ⟨_, h.symm, .inl ⟨hs, rfl⟩⟩
    · rw [clockStep_fetchInstr hh ha hs] at h
      simp only [Host.Outcome.next.injEq] at h
      exact ⟨_, h.symm, .inr (.inl ⟨hs, rfl⟩)⟩
    · rw [clockStep_decode hh ha hc] at h
      obtain ⟨d, hd, ht⟩ := andThen_eq_next h
      simp only [Host.Outcome.next.injEq] at ht
      exact ⟨_, ht.symm, .inr (.inr (.inl ⟨hc, d, hd, rfl⟩))⟩
    · rw [clockStep_count hh ha (.inl hc)] at h
      simp only [Host.Outcome.next.injEq] at h
      exact ⟨_, h.symm, .inr (.inr (.inr (.inl ⟨hc, by simp [countX, hc]⟩)))⟩
    · rw [clockStep_count hh ha (.inr hc)] at h
      simp only [Host.Outcome.next.injEq] at h
      exact ⟨_, h.symm, .inr (.inr (.inr (.inr ⟨hc, by simp [countX, hc]⟩)))⟩

/-- A clock step inside the image in stage A or M is its stage work alone (R78, R79, R87). -/
theorem clockStep_fetchAddr_inside {s : State} (hh : s.halted = false) (ha : s.stageAgrees) (hs : s.stage = .fetchAddr)
    (hr : s.pc.toNat < s.romSizeBytes.val) : clockStep s = .next (stepA s) := by
  rw [clockStep_fetchAddr hh ha hs, runEndCheck_of_inside (by simpa [stepA] using hh) (by simpa [stepA] using hr)]

theorem clockStep_fetchInstr_inside {s : State} (hh : s.halted = false) (ha : s.stageAgrees) (hs : s.stage = .fetchInstr)
    (hr : s.pc.toNat < s.romSizeBytes.val) :
    clockStep s = .next (advanceCycle (shiftIr (driveBus (togglePhase s) (chipNibble s)))) := by
  rw [clockStep_fetchInstr hh ha hs, runEndCheck_of_inside (by simpa using hh) (by simpa using hr)]

/-! ### The decode step -/

theorem decodeStep_pending {s : State} (h : s.wide.pending = true) :
    decodeStep s =
      andThen (completeWide s.wide.opr s.wide.opa (hiNibble s.ir) (loNibble s.ir) s) fun t => .next (clearWide t) := by
  simp [decodeStep, h]

theorem decodeStep_first {s : State} (h : s.wide.pending = false) (hw : isWideOpr (hiNibble s.ir) = true) :
    decodeStep s = .next (armWide s (hiNibble s.ir) (loNibble s.ir)) := by
  simp [decodeStep, h, hw]

theorem decodeStep_single {s : State} {i : Instr} (h : s.wide.pending = false)
    (hi : decodeSingle (hiNibble s.ir) (loNibble s.ir) = some i) : decodeStep s = exec i s := by
  have hw : isWideOpr (hiNibble s.ir) = false := by
    by_contra hc
    have := (decodeSingle_eq_none_iff (hiNibble s.ir) (loNibble s.ir)).mpr (by simpa using hc)
    simp [this] at hi
  simp [decodeStep, h, hw, executeSingle, hi]

theorem completeWide_some {popr popa opr2 opa2 : Nibble} {i : Instr} (h : decodeWide popr popa opr2 opa2 = some i)
    (s : State) : completeWide popr popa opr2 opa2 s = exec i s := by
  simp [completeWide, h]

/-- The otherwise-row of R85: no operation. -/
theorem completeWide_none {popr : Nibble} (h : isWideOpr popr = false) (popa opr2 opa2 : Nibble) (s : State) :
    completeWide popr popa opr2 opa2 s = .next s := by
  simp [completeWide, (decodeWide_eq_none_iff popr popa opr2 opa2).mpr h]

/-- What a decode step can be: nothing but a completing one, an arming one, or one instruction's meaning (R82). -/
theorem decodeStep_cases {s t : State} (h : decodeStep s = .next t) :
    (s.wide.pending = true ∧ ((∃ i u, exec i s = .next u ∧ i.words = 2 ∧ t = clearWide u) ∨ t = clearWide s)) ∨
    (s.wide.pending = false ∧ isWideOpr (hiNibble s.ir) = true ∧ t = armWide s (hiNibble s.ir) (loNibble s.ir)) ∨
    (s.wide.pending = false ∧ ∃ i, i.words = 1 ∧ exec i s = .next t) := by
  cases hp : s.wide.pending with
  | true =>
    rw [decodeStep_pending hp] at h
    obtain ⟨u, hu, ht⟩ := andThen_eq_next h
    simp only [Host.Outcome.next.injEq] at ht
    cases hw : decodeWide s.wide.opr s.wide.opa (hiNibble s.ir) (loNibble s.ir) with
    | some i =>
      rw [completeWide_some hw] at hu
      exact .inl ⟨rfl, .inl ⟨i, u, hu, decodeWide_words hw, ht.symm⟩⟩
    | none =>
      simp only [completeWide, hw, Host.Outcome.next.injEq] at hu
      exact .inl ⟨rfl, .inr (by rw [← ht, ← hu])⟩
  | false =>
    cases hw : isWideOpr (hiNibble s.ir) with
    | true =>
      rw [decodeStep_first hp hw] at h
      simp only [Host.Outcome.next.injEq] at h
      exact .inr (.inl ⟨rfl, rfl, h.symm⟩)
    | false =>
      obtain ⟨i, hi⟩ := exists_decodeSingle hw (loNibble s.ir)
      rw [decodeStep_single hp hi] at h
      exact .inr (.inr ⟨rfl, i, decodeSingle_words hi, h⟩)

/-! ### Runs -/

@[simp] theorem clockRun_zero (s : State) : clockRun 0 s = .next s := rfl

theorem clockRun_succ (n : Nat) (s : State) : clockRun (n + 1) s = andThen (clockStep s) (clockRun n) := rfl

theorem clockRun_add (m n : Nat) (s : State) : clockRun (m + n) s = andThen (clockRun m s) (clockRun n) := by
  induction m generalizing s with
  | zero => simp
  | succ m ih =>
    rw [Nat.add_right_comm, clockRun_succ, clockRun_succ, andThen_assoc]
    congr 1
    funext t
    exact ih t

theorem clockRun_of_halted {s : State} (h : s.halted = true) (n : Nat) : clockRun n s = .next s := by
  induction n with
  | zero => rfl
  | succ n ih => rw [clockRun_succ, clockStep_of_halted h, andThen_next, ih]

theorem runToBoundary_succ (n : Nat) (s : State) :
    runToBoundary (n + 1) s =
      andThen (clockStep s) fun t => if t.halted || atBoundary t then .next t else runToBoundary n t := rfl

/-- A property every clock step keeps is kept by the run to the end of the current instruction: the induction over a step,
once. -/
theorem runToBoundary_keeps {P : State → Prop} (hP : ∀ s t, P s → clockStep s = .next t → P t) (n : Nat) {s t : State}
    (hs : P s) (h : runToBoundary n s = .next t) : P t := by
  induction n generalizing s with
  | zero =>
    simp only [runToBoundary, Host.Outcome.next.injEq] at h
    exact h ▸ hs
  | succ n ih =>
    rw [runToBoundary_succ] at h
    obtain ⟨u, hu, ht⟩ := andThen_eq_next h
    have hPu := hP s u hs hu
    split at ht
    · simp only [Host.Outcome.next.injEq] at ht
      exact ht ▸ hPu
    · exact ih hPu ht

/-- The same for a number of clock steps. -/
theorem clockRun_keeps {P : State → Prop} (hP : ∀ s t, P s → clockStep s = .next t → P t) (n : Nat) {s t : State}
    (hs : P s) (h : clockRun n s = .next t) : P t := by
  induction n generalizing s with
  | zero =>
    simp only [clockRun_zero, Host.Outcome.next.injEq] at h
    exact h ▸ hs
  | succ n ih =>
    rw [clockRun_succ] at h
    obtain ⟨u, hu, ht⟩ := andThen_eq_next h
    exact ih (hP s u hs hu) ht

end Sys2Proof.Machine
end

