-- ==== Sys2Proof/Laws/PerInstr.lean ====
section
/-! SUPPORT. What is said of every instruction as syntax, one lemma per constructor. -/

namespace Sys2Proof.Laws.EncodingShape

/-- The encoding has as many words as the instruction (R63, R64), and its first word is selected by the row of the opcode
table that bears the instruction's mnemonic and has its length (R66, R76). -/
def Statement (i : Instr) : Prop :=
  (encode i).length = i.words ∧
    ∃ r ∈ opcodeTable, r.mnemonic = i.mnemonic ∧ r.words = i.words ∧ ∃ w tail, encode i = w :: tail ∧ r.selects w = true

/-- The row at a place of the table selects a first word: the form in which the cases below are proved. -/
theorem of_row {i : Instr} {w : Byte} {tail : List Byte} (r : OpcodeRow) (hr : r ∈ opcodeTable) (he : encode i = w :: tail)
    (hl : (w :: tail).length = i.words) (hm : r.mnemonic = i.mnemonic) (hw : r.words = i.words) (hs : r.selects w = true) :
    Statement i :=
  ⟨he ▸ hl, r, hr, hm, hw, w, tail, he, hs⟩

theorem nop (x : Nibble) : Statement (.nop x) :=
  of_row ⟨"NOP", 0x00#8, 0xF0#8, 1⟩ (by decide) rfl rfl rfl rfl (by revert x; decide)

theorem jcn (cond : Nibble) (a8 : Byte) : Statement (.jcn cond a8) :=
  of_row ⟨"JCN", 0x10#8, 0xF0#8, 2⟩ (by decide) rfl rfl rfl rfl (by revert cond; decide)

theorem fim (p : PairIx) (x : BitVec 1) (d8 : Byte) : Statement (.fim p x d8) :=
  of_row ⟨"FIM", 0x20#8, 0xF0#8, 2⟩ (by decide) rfl rfl rfl rfl (by revert p x; decide)

theorem fin (p : PairIx) : Statement (.fin p) :=
  of_row ⟨"FIN", 0x30#8, 0xF1#8, 1⟩ (by decide) rfl rfl rfl rfl (by revert p; decide)

theorem jin (p : PairIx) : Statement (.jin p) :=
  of_row ⟨"JIN", 0x31#8, 0xF1#8, 1⟩ (by decide) rfl rfl rfl rfl (by revert p; decide)

theorem jun (a12 : Addr) : Statement (.jun a12) :=
  of_row ⟨"JUN", 0x40#8, 0xF0#8, 2⟩ (by decide) rfl rfl rfl rfl
    (by generalize addrTop a12 = n; revert n; decide)

theorem jms (a12 : Addr) : Statement (.jms a12) :=
  of_row ⟨"JMS", 0x50#8, 0xF0#8, 2⟩ (by decide) rfl rfl rfl rfl
    (by generalize addrTop a12 = n; revert n; decide)

theorem inc (reg : RegIx) : Statement (.inc reg) :=
  of_row ⟨"INC", 0x60#8, 0xF0#8, 1⟩ (by decide) rfl rfl rfl rfl (by revert reg; decide)

theorem isz (reg : RegIx) (a8 : Byte) : Statement (.isz reg a8) :=
  of_row ⟨"ISZ", 0x70#8, 0xF0#8, 2⟩ (by decide) rfl rfl rfl rfl (by revert reg; decide)

theorem rsv8 (x : Nibble) : Statement (.rsv8 x) :=
  of_row ⟨"RSV8", 0x80#8, 0xF0#8, 1⟩ (by decide) rfl rfl rfl rfl (by revert x; decide)

theorem rsv9 (x : Nibble) : Statement (.rsv9 x) :=
  of_row ⟨"RSV9", 0x90#8, 0xF0#8, 1⟩ (by decide) rfl rfl rfl rfl (by revert x; decide)

theorem rsva (x : Nibble) : Statement (.rsva x) :=
  of_row ⟨"RSVA", 0xA0#8, 0xF0#8, 1⟩ (by decide) rfl rfl rfl rfl (by revert x; decide)

theorem rsvb (x : Nibble) : Statement (.rsvb x) :=
  of_row ⟨"RSVB", 0xB0#8, 0xF0#8, 1⟩ (by decide) rfl rfl rfl rfl (by revert x; decide)

theorem rsvc (x : Nibble) : Statement (.rsvc x) :=
  of_row ⟨"RSVC", 0xC0#8, 0xF0#8, 1⟩ (by decide) rfl rfl rfl rfl (by revert x; decide)

theorem rsvd (x : Nibble) : Statement (.rsvd x) :=
  of_row ⟨"RSVD", 0xD0#8, 0xF0#8, 1⟩ (by decide) rfl rfl rfl rfl (by revert x; decide)

theorem rsve (x : Nibble) : Statement (.rsve x) :=
  of_row ⟨"RSVE", 0xE0#8, 0xF0#8, 1⟩ (by decide) rfl rfl rfl rfl (by revert x; decide)

theorem rsvf (x : Nibble) : Statement (.rsvf x) :=
  of_row ⟨"RSVF", 0xF0#8, 0xF0#8, 1⟩ (by decide) rfl rfl rfl rfl (by revert x; decide)

end Sys2Proof.Laws.EncodingShape
end

