-- ==== Sys2Proof/Tests/Slice0.lean ====
section
/-! SUPPORT. Small tests. Expected values are the spec's own: the encodings of spec/30_encoding.md, the vectors of
spec/95_test_vectors.md (named V-… and P… as there). The last part gives, for every obligation with hypotheses, a state and
operands that meet them, one for each clause. -/

namespace Sys2Proof.Tests

open Sys2Proof.Machine

/-! ### Helpers -/

/-- A start state of a vector: some bytes of program memory, the loaded size, `pc`; everything else at reset. -/
def place (rom : Memory) (size : Fin 4097) (pc : Addr) : State := { State.reset with rom := rom, romSizeBytes := size, pc := pc }

/-- What a view of the state shows after one step. -/
def afterStep {α : Type} (s : State) (view : State → α) : Option α :=
  match step s with
  | .next t => some (view t)
  | .fault _ => none
  | .refused _ => none

/-- What a view of the state shows after some clock steps. -/
def afterClocks {α : Type} (n : Nat) (s : State) (view : State → α) : Option α :=
  match clockRun n s with
  | .next t => some (view t)
  | .fault _ => none
  | .refused _ => none

/-- All sixteen registers. -/
def registers (s : State) : List Nibble := s.regs.toList

/-- The position in the instruction cycle and the halt latch. -/
def position (s : State) : Stage × Fin 8 × Bool := (s.stage, s.cycle, s.halted)

/-- The call stack. -/
def calls (s : State) : Fin 3 × List Addr := (s.sp, s.stack.toList)

/-! ### Well-formedness: each check refuses an ill-formed term (R74) -/

theorem test_assembler_refuses_nop_with_operand : (Instr.nop 5#4).assemblerForm = false := by decide

theorem test_assembler_refuses_odd_fim : (Instr.fim 3 1#1 0xAB#8).assemblerForm = false := by decide

theorem test_assembler_accepts_its_own_forms :
    (Instr.nop 0#4).assemblerForm = true ∧ (Instr.fim 3 0#1 0xAB#8).assemblerForm = true ∧
    (Instr.rsva 7#4).assemblerForm = true := by decide

/-! ### Decoding: a word of every constructor, written out from R62, R63, R66 -/

theorem test_decode_nop : decode [0b00001010#8] = .ok (.nop 0b1010#4, []) := by decide
theorem test_decode_jcn : decode [0b00010100#8, 0b00000110#8] = .ok (.jcn 0b0100#4 0x06#8, []) := by decide
theorem test_decode_fim : decode [0b00101101#8, 0b10100001#8] = .ok (.fim 6 1#1 0xA1#8, []) := by decide
theorem test_decode_fin : decode [0b00110110#8] = .ok (.fin 3, []) := by decide
theorem test_decode_jin : decode [0b00110111#8] = .ok (.jin 3, []) := by decide
theorem test_decode_jun : decode [0b01000001#8, 0b00100011#8] = .ok (.jun 0x123#12, []) := by decide
theorem test_decode_jms : decode [0b01011010#8, 0b10111100#8] = .ok (.jms 0xABC#12, []) := by decide
theorem test_decode_inc : decode [0b01101111#8] = .ok (.inc 15, []) := by decide
theorem test_decode_isz : decode [0b01110101#8, 0b11111111#8] = .ok (.isz 5 0xFF#8, []) := by decide
theorem test_decode_rsv8 : decode [0b10000001#8] = .ok (.rsv8 1#4, []) := by decide
theorem test_decode_rsv9 : decode [0b10010010#8] = .ok (.rsv9 2#4, []) := by decide
theorem test_decode_rsva : decode [0b10100011#8] = .ok (.rsva 3#4, []) := by decide
theorem test_decode_rsvb : decode [0b10110100#8] = .ok (.rsvb 4#4, []) := by decide
theorem test_decode_rsvc : decode [0b11000101#8] = .ok (.rsvc 5#4, []) := by decide
theorem test_decode_rsvd : decode [0b11010110#8] = .ok (.rsvd 6#4, []) := by decide
theorem test_decode_rsve : decode [0b11100111#8] = .ok (.rsve 7#4, []) := by decide
theorem test_decode_rsvf : decode [0b11111000#8] = .ok (.rsvf 8#4, []) := by decide

/-- Bytes can be missing; none is illegal (R71). -/
theorem test_decode_missing_words :
    decode [] = .error .noWord ∧ decode [0x7E#8] = .error (.noSecondWord 0x7E#8) := by decide

/-- The model's order of the two words in one number (log 23): FIM P0,0xA1 is the word 0x20 and then 0xA1, INC 5 is 0x65. -/
theorem test_table_word : decodeTableWord 16 0xA120 = some (.fim 0 0#1 0xA1#8) ∧ decodeTableWord 8 0x65 = some (.inc 5) := by
  decide

/-! ### Shared operations (V-LATCH, V-CHIP, V-PRB, V-COMMIT, V-PUSH, V-COND) -/

theorem test_latch_write :
    (latchWrite { State.reset with addrLatch := 0xABC#12 } 0x5#4).addrLatch = 0x5AB#12 ∧
    (latchWrite { State.reset with addrLatch := 0xFFF#12 } 0x3#4).addrLatch = 0x3FF#12 := by decide

theorem test_page_rule_bank :
    [0x000#12, 0x0FE#12, 0x0FF#12, 0x100#12, 0x7FF#12, 0xEFF#12, 0xF00#12, 0xFFF#12].map (fun pc => pageRuleBank (place [] 0 pc)) =
      [0x0#4, 0x0#4, 0x1#4, 0x1#4, 0x8#4, 0xF#4, 0xF#4, 0xF#4] := by decide

theorem test_jump_commit :
    [0x123#12, 0x001#12, 0x000#12, 0xFFF#12].map (fun t => (jumpCommit State.reset t).pc) =
      [0x122#12, 0x000#12, 0xFFF#12, 0xFFE#12] := by decide

theorem test_fourth_push :
    calls (stackPush (stackPush (stackPush (stackPush State.reset 0x001#12) 0x004#12) 0x007#12) 0x00A#12) =
      (1, [0x00A#12, 0x004#12, 0x007#12]) := by decide

/-- The row `acc = 5`, `cy = 1` of V-COND. -/
theorem test_condition_row :
    (List.range 16).map (fun c => jcnTaken { State.reset with acc := 5#4, cy := true } (BitVec.ofNat 4 c)) =
      [false, false, true, true, false, false, true, true, true, true, false, false, true, true, false, false] := by decide

theorem test_memory_canonical :
    Memory.wf State.reset.rom = true ∧ Memory.set (Memory.set [] 5 0x12#8) 5 0x00#8 = [] ∧
    Memory.wf [(5, 0x00#8)] = false ∧ Memory.wf [(5, 0x01#8), (5, 0x02#8)] = false := by decide

/-! ### One step of each instruction -/

/-- V-NOP. -/
theorem test_step_no_effect :
    ∀ b ∈ [0x00#8, 0x0F#8, 0x80#8, 0x95#8, 0xAB#8, 0xB0#8, 0xC0#8, 0xD5#8, 0xE1#8, 0xF2#8, 0xFF#8],
      afterStep { startOf [b] with
          regs := #v[0, 1, 2, 3, 4, 5, 6, 7, 8, 9, 10, 11, 12, 13, 14, 15], sp := 2, stack := #v[0x123, 0x456, 0x789],
          romSizeBytes := 1 }
        (fun t => (registers t, t.pc, calls t, t.halted)) =
      some ([0, 1, 2, 3, 4, 5, 6, 7, 8, 9, 10, 11, 12, 13, 14, 15], 0x001#12, (2, [0x123, 0x456, 0x789]), true) := by decide

/-- V-FIM, the row with an odd OPA. -/
theorem test_step_fim_odd :
    afterStep (startOf [0x21#8, 0x5A#8]) (fun t => (getReg t 0, getReg t 1, getReg t 2, t.pc, t.wide.pending)) =
      some (0x5#4, 0xA#4, 0x0#4, 0x002#12, false) := by decide

/-- V-FIM. -/
theorem test_step_fim_last_pair :
    afterStep (startOf [0x2E#8, 0xC3#8]) (fun t => (getReg t 14, getReg t 15, getReg t 0)) = some (0xC#4, 0x3#4, 0x0#4) := by
  decide

/-- V-FIN: FIN at offset 255 of bank 2 reads bank 2. -/
theorem test_step_fin_no_page_rule :
    afterStep (place [(0x200, 0x5C#8), (0x2FF, 0x36#8)] 1024 0x2FF#12)
        (fun t => (getPair t 3, t.pc, t.bus, t.addrLatch, t.halted)) =
      some (0x5C#8, 0x300#12, 0xC#4, 0x200#12, false) := by decide

/-- V-FIN: FIN into pair 0 overwrites the address it used. -/
theorem test_step_fin_pair_zero :
    afterStep (setPair (place [(0x310, 0x30#8), (0x342, 0xD9#8)] 4096 0x310#12) 0 0x42#8)
        (fun t => (getReg t 0, getReg t 1, t.pc)) =
      some (0xD#4, 0x9#4, 0x311#12) := by decide

/-- V-INC: the wrap, and no carry. -/
theorem test_step_inc_wraps :
    afterStep (setReg (startOf [0x6F#8]) 15 0xF#4) (fun t => (getReg t 15, t.cy, t.pc)) = some (0x0#4, false, 0x001#12) := by
  decide

/-- V-ISZ: not zero jumps, by the page rule; zero falls through. -/
theorem test_step_isz_jumps :
    afterStep (setReg (place [(0x0FE, 0x73#8), (0x0FF, 0x40#8)] 512 0x0FE#12) 3 0x1#4) (fun t => (getReg t 3, t.pc)) =
      some (0x2#4, 0x140#12) := by decide

theorem test_step_isz_falls_through :
    afterStep (setReg (place [(0x0FE, 0x73#8), (0x0FF, 0x40#8)] 512 0x0FE#12) 3 0xF#4) (fun t => (getReg t 3, t.pc)) =
      some (0x0#4, 0x100#12) := by decide

/-- V-JCN and V-JCN-page. -/
theorem test_step_jcn_taken :
    afterStep (place [(0x0FE, 0x14#8), (0x0FF, 0x02#8)] 512 0x0FE#12) (fun t => (t.pc, position t)) =
      some (0x102#12, .fetchAddr, 0, false) := by decide

theorem test_step_jcn_not_taken :
    afterStep (place [(0x0FE, 0x1C#8), (0x0FF, 0x02#8)] 512 0x0FE#12) (fun t => t.pc) = some 0x100#12 := by decide

/-- V-JIN: one byte after the pair, in the page-rule bank. -/
theorem test_step_jin_page_rule :
    afterStep (setPair (place [(0x0FF, 0x33#8)] 512 0x0FF#12) 1 0x20#8) (fun t => (t.pc, t.halted)) =
      some (0x121#12, false) := by decide

theorem test_step_jin_wraps :
    afterStep (setPair (place [(0xF10, 0x37#8)] 4096 0xF10#12) 3 0xFF#8) (fun t => (t.pc, t.halted)) =
      some (0x000#12, false) := by decide

/-- V-JUN: no page rule; and the run that ends at the decode step (S8). -/
theorem test_step_jun :
    afterStep (place [(0x0FE, 0x40#8), (0x0FF, 0x05#8)] 256 0x0FE#12) (fun t => (t.pc, position t)) =
      some (0x005#12, .fetchAddr, 0, false) := by decide

theorem test_step_jun_out_of_bounds :
    afterStep (startOf [0x4F#8, 0xFF#8]) (fun t => (t.pc, position t)) = some (0xFFE#12, .execute, 6, true) := by decide

/-- V-JMS: the address of the second word is pushed, also across the top of memory. -/
theorem test_step_jms :
    afterStep { place [(0x0FE, 0x52#8), (0x0FF, 0x34#8)] 768 0x0FE#12 with sp := 1, stack := #v[0x111, 0x222, 0x333] }
        (fun t => (t.pc, calls t)) =
      some (0x234#12, 2, [0x111#12, 0x0FF#12, 0x333#12]) := by decide

theorem test_step_jms_straddles_top :
    afterStep { place [(0xFFF, 0x58#8)] 4096 0xFFF#12 with sp := 2, stack := #v[0x001, 0x002, 0x003] }
        (fun t => (t.pc, calls t)) =
      some (0x800#12, 0, [0x001#12, 0x002#12, 0x000#12]) := by decide

/-! ### The clock step (P1's trace, P8, P9) -/

/-- Clock 4 of P1: the half-filled instruction register. -/
theorem test_clock_four_of_fim :
    afterClocks 4 (startOf [0x20#8, 0xA1#8]) (fun t => (t.stage, t.cycle, t.bus, t.nibblePhase, t.ir)) =
      some (.fetchInstr, 4, 0x2#4, 1#1, 0x02#8) := by decide

/-- Clock 9 of P1: the first nibble of address 1 goes out while the first word is remembered. -/
theorem test_clock_nine_of_fim :
    afterClocks 9 (startOf [0x20#8, 0xA1#8]) (fun t => (t.cycle, t.bus, t.addrLatch, t.pc, t.wide)) =
      some (1, 0x1#4, 0x100#12, 0x001#12, ⟨true, 0x2#4, 0x0#4⟩) := by decide

/-- P8: a lone first word ends the run after eight clock steps, with the latch set. -/
theorem test_lone_first_word :
    afterStep (startOf [0x20#8]) (fun t => (t.pc, t.wide.pending, position t)) =
      some (0x001#12, true, .fetchAddr, 0, true) := by decide

/-- The instruction placed for one step is the one that runs. -/
theorem test_placed_word_runs :
    afterStep (State.reset.withFetchWord 16 0xA12E) (fun t => (getPair t 7, t.pc)) = some (0xA1#8, 0x002#12) ∧
    afterStep (State.reset.withFetchWord 8 0x65) (fun t => getReg t 5) = some 0x1#4 := by decide

/-! ### Witnesses: the hypotheses of each obligation, met together, clause by clause at boundary values -/

/-- The state some clock steps later. -/
def clocked (n : Nat) (s : State) : State :=
  match clockRun n s with
  | .next t => t
  | .fault _ => s
  | .refused _ => s

/-- FIM P0, 0xA1 in an image that goes on after it. -/
def fimStart : State := startOf [0x20#8, 0xA1#8, 0x00#8]

/-- A core that is running with a full image at the top of memory. -/
def topOfMemory : State := place [(0xFFF, 0x6F#8)] 4096 0xFFF#12

theorem test_witness_EncodeOfDecodeIsWords :
    decode [0x20#8, 0xA1#8, 0x6F#8] = .ok (.fim 0 0#1 0xA1#8, [0x6F#8]) ∧ decode [0xFF#8] = .ok (.rsvf 0xF#4, []) := by decide

theorem test_witness_DecoderFollowsOpcodeTable :
    decode (0x3F#8 :: [0x00#8]) = .ok (.jin 7, [0x00#8]) ∧ decode (0x3E#8 :: []) = .ok (.fin 7, []) := by decide

/-- Both phases, at the top byte and the bottom byte (V-CHIP's rows). -/
theorem test_witness_ChipReadGivesNibbleAndToggles :
    { topOfMemory with addrLatch := 0xFFF#12 }.nibblePhase = 0#1 ∧
    { topOfMemory with nibblePhase := 1#1, addrLatch := 0x000#12 }.nibblePhase = 1#1 := by decide

theorem test_witness_MemoryReadGivesByteAtAddress :
    topOfMemory.nibblePhase = 0#1 ∧ { topOfMemory with nibblePhase := 1#1 }.nibblePhase = 1#1 := by decide

theorem test_witness_FinLoadsIndirectIntoPair :
    topOfMemory.nibblePhase = 0#1 ∧ { topOfMemory with nibblePhase := 1#1 }.nibblePhase = 1#1 := by decide

theorem test_witness_IncAddsOneAndWraps : getReg (setReg State.reset 15 0xF#4) 15 = 0xF#4 := by decide

theorem test_witness_IszIncrementsAndJumpsIfNotZero :
    getReg (setReg State.reset 15 0xF#4) 15 = 0xF#4 ∧ getReg (setReg State.reset 15 0xE#4) 15 ≠ 0xF#4 := by decide

theorem test_witness_JcnJumpsWhenConditionHolds :
    jcnTaken State.reset 0x8#4 = true ∧ jcnTaken State.reset 0xF#4 = false ∧ jcnTaken State.reset 0x0#4 = false := by decide

/-- The clauses exclude each other; each at its boundary. -/
theorem test_witness_PageRuleMovesOnAtOffset255 :
    ((0xEFF#12 : Addr).toNat % 256 = 255 ∧ (0xEFF#12 : Addr).toNat / 256 < 15) ∧
    ((0xFFF#12 : Addr).toNat % 256 = 255 ∧ (0xFFF#12 : Addr).toNat / 256 = 15) ∧
    (0xFFE#12 : Addr).toNat % 256 ≠ 255 := by decide

theorem test_witness_ExecKeepsFlagsSequencingAndMemory : ∃ t, exec (.fin 7) topOfMemory = .next t := ⟨_, rfl⟩

/-- A register that changes, under each of the four instructions. -/
theorem test_witness_OnlyLoadsAndIncrementsWriteRegisters :
    (∃ t, exec (.fim 7 0#1 0xA1#8) State.reset = .next t ∧ getReg t 15 ≠ getReg State.reset 15) ∧
    (∃ t, exec (.fin 0) { topOfMemory with rom := [(0, 0x12#8)] } = .next t ∧ getReg t 0 ≠ getReg topOfMemory 0) ∧
    (∃ t, exec (.inc 15) State.reset = .next t ∧ getReg t 15 ≠ getReg State.reset 15) ∧
    (∃ t, exec (.isz 0 0xFF#8) State.reset = .next t ∧ getReg t 0 ≠ getReg State.reset 0) :=
  ⟨⟨_, rfl, by decide⟩, ⟨_, rfl, by decide⟩, ⟨_, rfl, by decide⟩, ⟨_, rfl, by decide⟩⟩

theorem test_witness_OnlyJmsWritesStack :
    ∃ t, exec (.jms 0x123#12) topOfMemory = .next t ∧ (t.stack ≠ topOfMemory.stack ∨ t.sp ≠ topOfMemory.sp) :=
  ⟨_, rfl, by decide⟩

theorem test_witness_OnlyJumpsWritePcAndOnlyFinUsesBus :
    (∃ t, exec (.jin 0) topOfMemory = .next t ∧ t.pc ≠ topOfMemory.pc) ∧
    (∃ t, exec (.fin 0) { topOfMemory with addrLatch := 0xF12#12 } = .next t ∧ t.addrLatch ≠ 0xF12#12) :=
  ⟨⟨_, rfl, by decide⟩, ⟨_, rfl, by decide⟩⟩

theorem test_witness_WideFirstWordOnlyArmsLatch :
    (clocked 5 fimStart).wide.pending = false ∧
    hiNibble (clocked 5 fimStart).ir ∈ [0x1#4, 0x2#4, 0x4#4, 0x5#4, 0x7#4] := by decide

theorem test_witness_SecondWordIsDataAndClearsLatch :
    (clocked 13 fimStart).wide.pending = true ∧ (clocked 13 fimStart).pendingIsWide := by decide

theorem test_witness_SingleWordIsExecutedAtOnce :
    (clocked 5 topOfMemory).wide.pending = false ∧ decode [(clocked 5 topOfMemory).ir] = .ok (.inc 15, []) := by decide

theorem test_witness_HaltedCoreDoesNotStep : (clocked 1 State.reset).halted = true := by decide

theorem test_witness_DisagreeingStageHasNoStep :
    { State.reset with stage := .execute }.halted = false ∧ ¬ { State.reset with stage := .execute }.stageAgrees := by decide

/-- Inside the image and at its end. -/
theorem test_witness_ComparatorRunsAfterEveryClockStep :
    (topOfMemory.halted = false ∧ topOfMemory.stageAgrees) ∧ (State.reset.halted = false ∧ State.reset.stageAgrees) := by decide

/-- A fetch cycle, and the cycle that ends the instruction cycle at the top of memory. -/
theorem test_witness_PcMovesOnlyAtDecodeAndAtCycleEnd :
    (topOfMemory.halted = false ∧ topOfMemory.cycle ≠ 5 ∧ topOfMemory.cycle ≠ 7 ∧ ∃ t, clockStep topOfMemory = .next t) ∧
    ((clocked 7 topOfMemory).halted = false ∧ (clocked 7 topOfMemory).cycle = 7 ∧
      ∃ t, clockStep (clocked 7 topOfMemory) = .next t) :=
  ⟨⟨by decide, by decide, by decide, _, rfl⟩, by decide, by decide, _, rfl⟩

/-- Each clause: the first and the last fetch cycle, the decode, and the two counting cycles. -/
theorem test_witness_DecodeHappensInFirstExecuteCycleOnly :
    (topOfMemory.halted = false ∧ topOfMemory.stageAgrees ∧ topOfMemory.cycle.val ≤ 4) ∧
    ((clocked 4 topOfMemory).halted = false ∧ (clocked 4 topOfMemory).stageAgrees ∧ (clocked 4 topOfMemory).cycle = 4) ∧
    ((clocked 5 topOfMemory).halted = false ∧ (clocked 5 topOfMemory).stageAgrees ∧ (clocked 5 topOfMemory).cycle = 5) ∧
    ((clocked 6 topOfMemory).halted = false ∧ (clocked 6 topOfMemory).stageAgrees ∧ (clocked 6 topOfMemory).cycle = 6) ∧
    ((clocked 7 topOfMemory).halted = false ∧ (clocked 7 topOfMemory).stageAgrees ∧ (clocked 7 topOfMemory).cycle = 7) :=
  ⟨by decide, by decide, by decide, by decide, by decide⟩

theorem test_witness_FiveClockStepsFetchTheByteAtPc : topOfMemory.ready ∧ fimStart.ready := by decide

theorem test_witness_EightClockStepsAreOneInstructionCycle : topOfMemory.ready ∧ fimStart.ready := by decide

/-- Before the first word's decode, after it, and after the second word's. -/
theorem test_witness_WideLatchIsSetForEightClockSteps :
    fimStart.ready ∧ fimStart.wide.pending = false ∧
    hiNibble (romByte fimStart fimStart.pc) ∈ [0x1#4, 0x2#4, 0x4#4, 0x5#4, 0x7#4] ∧
    (fimStart.pc + 1#12).toNat < fimStart.romSizeBytes.val ∧ 5 ≤ 14 ∧ 6 ≤ 14 ∧ 13 ≤ 14 ∧ 14 ≤ 14 := by decide

/-- The three clauses: a single word, a wide one inside the image, a wide one whose second word is beyond it. -/
theorem test_witness_StepRunsTheDecodedInstruction :
    (topOfMemory.ready ∧ topOfMemory.wide.pending = false ∧
      decode [romByte topOfMemory 0xFFF#12, romByte topOfMemory 0x000#12] = .ok (.inc 15, [0x00#8])) ∧
    (fimStart.ready ∧ fimStart.wide.pending = false ∧
      decode [romByte fimStart 0x000#12, romByte fimStart 0x001#12] = .ok (.fim 0 0#1 0xA1#8, []) ∧
      1 < fimStart.romSizeBytes.val) ∧
    ((startOf [0x20#8]).ready ∧ (startOf [0x20#8]).wide.pending = false ∧
      decode [romByte (startOf [0x20#8]) 0x000#12, romByte (startOf [0x20#8]) 0x001#12] = .ok (.fim 0 0#1 0x00#8, []) ∧
      (startOf [0x20#8]).romSizeBytes.val ≤ 1) := by decide

theorem test_witness_PlacedWordIsWhatTheStepFetches :
    Memory.wf topOfMemory.rom = true ∧ decodeTableWord 16 0xA120 = some (.fim 0 0#1 0xA1#8) := by decide

theorem test_witness_StepNeverFaults : topOfMemory.stageAgrees := by decide

/-- A step that ends between two instructions, and one that ends the run. -/
theorem test_witness_StepEndsBetweenInstructionsOrHalted :
    (topOfMemory.stageAgrees ∧ ∃ t, step topOfMemory = .next t ∧ t.halted = false) ∧
    (State.reset.stageAgrees ∧ ∃ t, step State.reset = .next t ∧ t.halted = true) :=
  ⟨⟨by decide, _, rfl, by decide⟩, by decide, _, rfl, by decide⟩

theorem test_witness_SingleWordTakesEightClockStepsWideSixteen :
    (fimStart.ready ∧ fimStart.wide.pending = false ∧
      decode [romByte fimStart 0x000#12, romByte fimStart 0x001#12] = .ok (.fim 0 0#1 0xA1#8, [])) ∧
    0 < 8 ∧ 8 < 8 * (Instr.fim 0 0#1 0xA1#8).words ∧ (∃ t, clockRun 8 fimStart = .next t ∧ t.halted = false) :=
  ⟨by decide, by decide, by decide, _, rfl, by decide⟩

theorem test_witness_StepWritesNoMemory : ∃ t, step topOfMemory = .next t := ⟨_, rfl⟩

theorem test_witness_StepLeavesAccumulatorAndCarry :
    ∃ t, step { topOfMemory with acc := 0xF#4, cy := true } = .next t := ⟨_, rfl⟩

/-- A landing inside the image (on its last byte) and one at its end. -/
theorem test_witness_JinGoesOnOneByteAfterThePair :
    ((place [(0, 0x31#8)] 1 0).ready ∧ (place [(0, 0x31#8)] 1 0).wide.pending = false ∧
      romByte (place [(0, 0x31#8)] 1 0) 0x000#12 = joinNibbles 0x3#4 (pairNibble 0 1#1) ∧
      (jinTarget (place [(0, 0x31#8)] 1 0) 0).toNat < 1) ∧
    ((setPair (place [(0, 0x31#8)] 1 0) 0 0x01#8).ready ∧ (setPair (place [(0, 0x31#8)] 1 0) 0 0x01#8).wide.pending = false ∧
      1 ≤ (jinTarget (setPair (place [(0, 0x31#8)] 1 0) 0 0x01#8) 0).toNat) := by decide

/-- The committed value on the last byte of the image, and just beyond it. -/
theorem test_witness_JunLandsOrEndsTheRun :
    ((startOf [0x40#8, 0x02#8]).ready ∧ (startOf [0x40#8, 0x02#8]).wide.pending = false ∧
      romByte (startOf [0x40#8, 0x02#8]) 0x000#12 = joinNibbles 0x4#4 (addrTop 0x002#12) ∧
      romByte (startOf [0x40#8, 0x02#8]) 0x001#12 = addrLow 0x002#12 ∧
      1 < (startOf [0x40#8, 0x02#8]).romSizeBytes.val ∧
      (0x002#12 - 1#12 : Addr).toNat < (startOf [0x40#8, 0x02#8]).romSizeBytes.val) ∧
    ((startOf [0x40#8, 0x03#8]).ready ∧ (startOf [0x40#8, 0x03#8]).wide.pending = false ∧
      romByte (startOf [0x40#8, 0x03#8]) 0x000#12 = joinNibbles 0x4#4 (addrTop 0x003#12) ∧
      romByte (startOf [0x40#8, 0x03#8]) 0x001#12 = addrLow 0x003#12 ∧
      (startOf [0x40#8, 0x03#8]).romSizeBytes.val ≤ (0x003#12 - 1#12 : Addr).toNat) := by decide

/-- A wide first word at address 0 with a second word 0x00. -/
def jumpToZero (first : Byte) (size : Fin 4097) : State := place [(0, first)] size 0

/-- What the statement asks of the state and the instruction, but for the four forms. -/
def jumpToZeroReady (first : Byte) (size : Fin 4097) (i : Instr) : Bool :=
  decide ((jumpToZero first size).ready ∧ (jumpToZero first size).wide.pending = false ∧
    decode [romByte (jumpToZero first size) 0x000#12, romByte (jumpToZero first size) 0x001#12] = .ok (i, []) ∧
    (0x001#12 : Addr).toNat < size.val ∧ (0x001#12 : Addr).toNat < 255)

/-- The four forms (a JCN that is taken, an ISZ whose register is one below the wrap), each with the largest image that ends and
with the full one. -/
theorem test_witness_JumpToZeroEndsTheRunUnlessImageIsFull :
    (jumpToZeroReady 0x40#8 4095 (.jun 0x000#12) && jumpToZeroReady 0x40#8 4096 (.jun 0x000#12) &&
      jumpToZeroReady 0x50#8 4095 (.jms 0x000#12) && jumpToZeroReady 0x50#8 4096 (.jms 0x000#12) &&
      jumpToZeroReady 0x18#8 4095 (.jcn 0x8#4 0x00#8) && jumpToZeroReady 0x18#8 4096 (.jcn 0x8#4 0x00#8) &&
      jumpToZeroReady 0x75#8 4095 (.isz 5 0x00#8) && jumpToZeroReady 0x75#8 4096 (.isz 5 0x00#8)) = true ∧
    jcnTaken (jumpToZero 0x18#8 4095) 0x8#4 = true ∧ getReg (jumpToZero 0x75#8 4095) 5 ≠ 0xF#4 ∧
    (jumpToZero 0x40#8 4095).romSizeBytes.val = 4095 ∧ (jumpToZero 0x40#8 4096).romSizeBytes.val = 4096 :=
  ⟨by decide, by decide, by decide, rfl, rfl⟩

theorem test_witness_ResetStateHasInvariant : fimStart.romContract ∧ topOfMemory.romContract := by decide

/-- A running state, one in the middle of a wide instruction, and one that has ended. -/
theorem test_witness_ClockStepKeepsInvariant :
    (fimStart.Inv ∧ ∃ t, clockStep fimStart = .next t) ∧
    ((clocked 12 fimStart).Inv ∧ ∃ t, clockStep (clocked 12 fimStart) = .next t) ∧
    ((clocked 1 State.reset).Inv ∧ ∃ t, clockStep (clocked 1 State.reset) = .next t) :=
  ⟨⟨by decide, _, rfl⟩, ⟨by decide, _, rfl⟩, by decide, _, rfl⟩

theorem test_witness_StepKeepsInvariant :
    (fimStart.Inv ∧ ∃ t, step fimStart = .next t) ∧
    ((clocked 12 fimStart).Inv ∧ ∃ t, step (clocked 12 fimStart) = .next t) :=
  ⟨⟨by decide, _, rfl⟩, by decide, _, rfl⟩

/-- At a first word's decode, and at a completing one. -/
theorem test_witness_DecodeSeesTheWordsAtPc :
    (∃ s, clockRun 5 fimStart = .next s ∧ s.cycle = 5) ∧
    (∃ s, clockRun 13 fimStart = .next s ∧ s.cycle = 5 ∧ s.wide.pending = true) :=
  ⟨⟨_, rfl, by decide⟩, _, rfl, by decide, by decide⟩

/-- In the middle of memory, and across its top (JMS at 0xFFF, its second word at 0x000). -/
theorem test_witness_CompletingDecodeSeesBothWords :
    (fimStart.ready ∧ fimStart.wide.pending = false ∧
      hiNibble (romByte fimStart fimStart.pc) ∈ [0x1#4, 0x2#4, 0x4#4, 0x5#4, 0x7#4] ∧
      (fimStart.pc + 1#12).toNat < fimStart.romSizeBytes.val) ∧
    ((place [(0xFFF, 0x58#8)] 4096 0xFFF#12).ready ∧ (place [(0xFFF, 0x58#8)] 4096 0xFFF#12).wide.pending = false ∧
      hiNibble (romByte (place [(0xFFF, 0x58#8)] 4096 0xFFF#12) 0xFFF#12) ∈ [0x1#4, 0x2#4, 0x4#4, 0x5#4, 0x7#4] ∧
      (0xFFF#12 + 1#12 : Addr).toNat < (place [(0xFFF, 0x58#8)] 4096 0xFFF#12).romSizeBytes.val) :=
  ⟨by decide, by decide⟩

theorem test_witness_EmptyImageStillTakesOneClockStep : State.reset.romSizeBytes = 0 := by decide

end Sys2Proof.Tests
end

section
/-! SUPPORT. What the meaning of an instruction can do, said once (spec/40_instruction_cycle.md R83, R85): it always answers,
and its next state is one of those `Effect` lists. Then what every meaning leaves unchanged, and the statements on registers,
the stack, `pc` and the bus that follow from it. -/

namespace Sys2Proof.Machine

/-! ### Registers and pairs -/

@[simp] theorem hiNibble_getPair (s : State) (p : PairIx) : hiNibble (getPair s p) = getReg s (evenReg p) :=
  hiNibble_joinNibbles _ _

@[simp] theorem loNibble_getPair (s : State) (p : PairIx) : loNibble (getPair s p) = getReg s (oddReg p) :=
  loNibble_joinNibbles _ _

/-- Reading the pair just written (R15). -/
@[simp] theorem getPair_setPair_same (s : State) (p : PairIx) (b : Byte) : getPair (setPair s p b) p = b := by
  simp [getPair]

/-- A register a pair write changes is one of the pair's two (R15). -/
theorem eq_even_or_odd_of_setPair_ne {s : State} {p : PairIx} {b : Byte} {q : RegIx}
    (h : getReg (setPair s p b) q ≠ getReg s q) : q = evenReg p ∨ q = oddReg p := by
  by_contra hc
  obtain ⟨he, ho⟩ := not_or.mp hc
  exact h (getReg_setPair_other s b he ho)

/-- A register a register write changes is the one written (R14). -/
theorem eq_of_setReg_ne {s : State} {r q : RegIx} {v : Nibble} (h : getReg (setReg s r v) q ≠ getReg s q) : q = r := by
  by_contra hc
  exact h (getReg_setReg_other s v hc)

/-- Settles O8: a pair is the join of its two registers, so each clause is a register read after a register write. -/
theorem pairsAreTheirTwoRegisters : Obligations.PairsAreTheirTwoRegisters := by
  intro s p b v
  exact ⟨rfl, rfl, hiNibble_getPair s p, loNibble_getPair s p, rfl, getPair_setPair_same s p b,
    fun q he ho => getReg_setPair_other s b he ho, rfl, by simp, by simp, by simp, by simp⟩

/-! ### What a meaning can do -/

/-- The next states of the meanings: one constructor per way an instruction ends its decode step. -/
inductive Effect (s : State) : Instr → State → Prop where
  /-- NOP and the unimplemented opcodes (R100 to R108). -/
  | noOp {i : Instr} (h : ∀ u, exec i u = .next u) : Effect s i s
  /-- FIM (R109). -/
  | fim (p : PairIx) (x : BitVec 1) (d8 : Byte) : Effect s (.fim p x d8) (setPair s p d8)
  /-- FIN, with the byte read and the nibble left on the bus (R110). -/
  | fin (p : PairIx) (b : Byte) (n : Nibble) :
      Effect s (.fin p) (setPair { s with addrLatch := finAddress s, bus := n } p b)
  /-- INC (R111). -/
  | inc (r : RegIx) : Effect s (.inc r) (setReg s r (incremented s r))
  /-- ISZ, the result zero (R112). -/
  | iszZero (r : RegIx) (a8 : Byte) (h : incremented s r = 0#4) : Effect s (.isz r a8) (setReg s r 0#4)
  /-- ISZ, the result not zero (R112). -/
  | iszJump (r : RegIx) (a8 : Byte) (h : incremented s r ≠ 0#4) :
      Effect s (.isz r a8) (jumpCommit (setReg s r (incremented s r)) (inPageTarget s a8))
  /-- JCN, taken (R114). -/
  | jcnTaken (cond : Nibble) (a8 : Byte) (h : jcnTaken s cond = true) :
      Effect s (.jcn cond a8) (jumpCommit s (inPageTarget s a8))
  /-- JCN, not taken (R114). -/
  | jcnSkipped (cond : Nibble) (a8 : Byte) (h : jcnTaken s cond = false) : Effect s (.jcn cond a8) s
  /-- JIN (R115). -/
  | jin (p : PairIx) : Effect s (.jin p) (setPc s (jinTarget s p))
  /-- JUN (R116). -/
  | jun (a12 : Addr) : Effect s (.jun a12) (jumpCommit s a12)
  /-- JMS (R117). -/
  | jms (a12 : Addr) : Effect s (.jms a12) (jumpCommit (stackPush s s.pc) a12)

/-- The meaning of every instruction answers a next state, and it is one of the listed ones (R71, R120). -/
theorem exec_next (i : Instr) (s : State) : ∃ t, exec i s = .next t ∧ Effect s i t := by
  cases i with
  | fim p x d8 => exact ⟨_, rfl, .fim p x d8⟩
  | fin p =>
    obtain ⟨b, n, h⟩ := exec_fin_next p s
    exact ⟨_, h, .fin p b n⟩
  | inc r => exact ⟨_, rfl, .inc r⟩
  | isz r a8 =>
    rw [exec_isz]
    split
    · exact ⟨_, rfl, .iszZero r a8 ‹_›⟩
    · exact ⟨_, rfl, .iszJump r a8 ‹_›⟩
  | jcn cond a8 =>
    rw [exec_jcn]
    split
    · exact ⟨_, rfl, .jcnTaken cond a8 ‹_›⟩
    · exact ⟨_, rfl, .jcnSkipped cond a8 (Bool.eq_false_iff.mpr ‹_›)⟩
  | jin p => exact ⟨_, rfl, .jin p⟩
  | jun a12 => exact ⟨_, rfl, .jun a12⟩
  | jms a12 => exact ⟨_, rfl, .jms a12⟩
  | _ => exact ⟨_, rfl, .noOp fun _ => rfl⟩

/-- What the meaning of an instruction can do: the case split every proof about a meaning's next state starts from. -/
theorem exec_effect {i : Instr} {s t : State} (h : exec i s = .next t) : Effect s i t := by
  obtain ⟨u, hu, he⟩ := exec_next i s
  cases hu.symm.trans h
  exact he

/-- The frame of every meaning: what no instruction's effect writes. -/
theorem exec_frame {i : Instr} {s t : State} (h : exec i s = .next t) :
    t = { s with
            regs := t.regs, pc := t.pc, stack := t.stack, sp := t.sp, bus := t.bus, addrLatch := t.addrLatch } := by
  cases exec_effect h <;> rfl

/-- Settles O23: the frame of every meaning. -/
theorem execKeepsFlagsSequencingAndMemory : Obligations.ExecKeepsFlagsSequencingAndMemory :=
  fun _ _ _ h => exec_frame h

/-- Settles O24: only the effects of FIM, FIN, INC and ISZ go through `setPair` or `setReg`; the others keep the register file. -/
theorem onlyLoadsAndIncrementsWriteRegisters : Obligations.OnlyLoadsAndIncrementsWriteRegisters := by
  intro i s t q h hne
  cases exec_effect h with
  | fim p x d8 => exact .inl ⟨p, x, d8, rfl, eq_even_or_odd_of_setPair_ne hne⟩
  | fin p b n => exact .inr (.inl ⟨p, rfl, eq_even_or_odd_of_setPair_ne hne⟩)
  | inc r =>
    obtain rfl := eq_of_setReg_ne hne
    exact .inr (.inr (.inl rfl))
  | iszZero r a8 _ =>
    obtain rfl := eq_of_setReg_ne hne
    exact .inr (.inr (.inr ⟨a8, rfl⟩))
  | iszJump r a8 _ =>
    obtain rfl := eq_of_setReg_ne hne
    exact .inr (.inr (.inr ⟨a8, rfl⟩))
  | _ => exact absurd (getReg_congr rfl q) hne

/-- Settles O25: only the effect of JMS pushes. -/
theorem onlyJmsWritesStack : Obligations.OnlyJmsWritesStack := by
  intro i s t h hne
  cases exec_effect h with
  | jms a12 => exact ⟨a12, rfl⟩
  | _ => simp at hne

/-- Settles O26: `pc` is written by `setPc` and `jumpCommit` only, the bus and the latch by the memory read of FIN only. -/
theorem onlyJumpsWritePcAndOnlyFinUsesBus : Obligations.OnlyJumpsWritePcAndOnlyFinUsesBus := by
  intro i s t h
  cases exec_effect h with
  | fin p b n => exact ⟨fun hne => absurd rfl hne, fun _ => ⟨p, rfl⟩⟩
  | iszJump r a8 _ => exact ⟨fun _ => .inr (.inr (.inr (.inr ⟨r, a8, rfl⟩))), by simp⟩
  | jcnTaken cond a8 _ => exact ⟨fun _ => .inl ⟨cond, a8, rfl⟩, by simp⟩
  | jin p => exact ⟨fun _ => .inr (.inl ⟨p, rfl⟩), by simp⟩
  | jun a12 => exact ⟨fun _ => .inr (.inr (.inl ⟨a12, rfl⟩)), by simp⟩
  | jms a12 => exact ⟨fun _ => .inr (.inr (.inr (.inl ⟨a12, rfl⟩))), by simp⟩
  | _ => simp

/-! ### What a meaning does not read -/

/-- A memory read does not look at the bus: its first address transfer overwrites it (R47). -/
theorem memRead_bus (s : State) (n : Nibble) (a : Addr) : memRead { s with bus := n } a = memRead s a := by
  simp only [memRead, sendAddr_three]

/-- FIN does not look at the bus. -/
theorem exec_fin_bus (p : PairIx) (s : State) (n : Nibble) : exec (.fin p) { s with bus := n } = exec (.fin p) s := by
  simp only [exec_fin, memRead_bus]
  rfl

/-- Settles O27: FIN overwrites the bus before it uses it, and no other meaning looks at it. -/
theorem noResultDependsOnBus : Obligations.NoResultDependsOnBus := by
  intro i s n
  cases i with
  | fin p =>
    obtain ⟨t, ht, -⟩ := exec_next (.fin p) s
    exact ⟨t, t, ht, (exec_fin_bus p s n).trans ht, rfl⟩
  | isz r a8 =>
    by_cases hz : incremented s r = 0#4
    · exact ⟨_, _, if_pos hz, if_pos hz, rfl⟩
    · exact ⟨_, _, if_neg hz, if_neg hz, rfl⟩
  | jcn cond a8 =>
    by_cases ht : jcnTaken s cond = true
    · exact ⟨_, _, if_pos ht, if_pos ht, rfl⟩
    · exact ⟨_, _, if_neg ht, if_neg ht, rfl⟩
  | _ => exact ⟨_, _, rfl, rfl, rfl⟩

/-- A memory read neither reads nor writes the stack (R47). -/
theorem memRead_stack (s : State) (stack : Vector Addr 3) (sp : Fin 3) (a : Addr) :
    memRead { s with stack := stack, sp := sp } a =
      andThen (memRead s a) fun r => .next (r.1, { r.2 with stack := stack, sp := sp }) := by
  simp only [memRead, chipReadToBus_eq, andThen_next]
  rfl

/-- FIN neither reads nor writes the stack. -/
theorem exec_fin_stack (p : PairIx) (s : State) (stack : Vector Addr 3) (sp : Fin 3) :
    exec (.fin p) { s with stack := stack, sp := sp } =
      andThen (exec (.fin p) s) fun t => .next { t with stack := stack, sp := sp } := by
  simp only [exec_fin, memRead_stack, andThen_assoc]
  rfl

/-- Settles O28: every meaning but that of JMS passes the stack through, and JMS only writes it. -/
theorem nothingReadsTheStack : Obligations.NothingReadsTheStack := by
  intro i s stack sp
  cases i with
  | fin p =>
    obtain ⟨t, ht, -⟩ := exec_next (.fin p) s
    exact ⟨t, _, ht, by rw [exec_fin_stack, ht, andThen_next], rfl⟩
  | isz r a8 =>
    by_cases hz : incremented s r = 0#4
    · exact ⟨_, _, if_pos hz, if_pos hz, rfl⟩
    · exact ⟨_, _, if_neg hz, if_neg hz, rfl⟩
  | jcn cond a8 =>
    by_cases ht : jcnTaken s cond = true
    · exact ⟨_, _, if_pos ht, if_pos ht, rfl⟩
    · exact ⟨_, _, if_neg ht, if_neg ht, rfl⟩
  | _ => exact ⟨_, _, rfl, rfl, rfl⟩

end Sys2Proof.Machine
end

section
/-! SUPPORT. What the decode step and a clock step always answer and never write (spec/40_instruction_cycle.md R77 to R87), and
the statements on `pc`, the accumulator and the carry flag that follow from it. -/

namespace Sys2Proof.Machine

/-! ### The decode step -/

/-- The decode step answers a next state, whatever the state (R71, R120). -/
theorem decodeStep_next (s : State) : ∃ t, decodeStep s = .next t := by
  cases hp : s.wide.pending with
  | true =>
    rw [decodeStep_pending hp]
    cases hw : decodeWide s.wide.opr s.wide.opa (hiNibble s.ir) (loNibble s.ir) with
    | some i =>
      obtain ⟨t, ht, -⟩ := exec_next i s
      exact ⟨clearWide t, by rw [completeWide_some hw, ht, andThen_next]⟩
    | none => exact ⟨clearWide s, by simp [completeWide, hw]⟩
  | false =>
    cases hw : isWideOpr (hiNibble s.ir) with
    | true => exact ⟨_, decodeStep_first hp hw⟩
    | false =>
      obtain ⟨i, hi⟩ := exists_decodeSingle hw (loNibble s.ir)
      obtain ⟨t, ht, -⟩ := exec_next i s
      exact ⟨t, (decodeStep_single hp hi).trans ht⟩

/-- The frame of the decode step: a meaning's, and the wide latch (R84, R86). -/
theorem decodeStep_frame {s t : State} (h : decodeStep s = .next t) :
    t = { s with
            regs := t.regs, pc := t.pc, stack := t.stack, sp := t.sp, bus := t.bus, addrLatch := t.addrLatch,
            wide := t.wide } := by
  rcases decodeStep_cases h with ⟨-, ⟨i, u, hu, -, rfl⟩ | rfl⟩ | ⟨-, -, rfl⟩ | ⟨-, i, -, hi⟩
  · rw [exec_frame hu]; rfl
  · rfl
  · rfl
  · rw [exec_frame hi]

theorem decodeStep_cycle {s d : State} (hd : decodeStep s = .next d) : d.cycle = s.cycle := by
  rw [decodeStep_frame hd]

theorem decodeStep_nibblePhase {s d : State} (hd : decodeStep s = .next d) : d.nibblePhase = s.nibblePhase := by
  rw [decodeStep_frame hd]

/-- A latch that is pending after the decode was armed by it, with a wide first word (R84, R86). -/
theorem decodeStep_armed {s t : State} (h : decodeStep s = .next t) (hp : t.wide.pending = true) :
    isWideOpr (hiNibble s.ir) = true ∧ t = armWide s (hiNibble s.ir) (loNibble s.ir) := by
  rcases decodeStep_cases h with ⟨-, ⟨i, u, -, -, rfl⟩ | rfl⟩ | ⟨-, hw, ht⟩ | ⟨hs, i, -, hi⟩
  · simp at hp
  · simp at hp
  · exact ⟨hw, ht⟩
  · rw [exec_frame hi] at hp
    exact absurd (hs.symm.trans hp) (by decide)

/-! ### The clock step -/

/-- A clock step answers a next state wherever the stage agrees with the cycle (R36 item 1). -/
theorem clockStep_next {s : State} (ha : s.stageAgrees) : ∃ t, clockStep s = .next t := by
  cases hh : s.halted with
  | true => exact ⟨s, clockStep_of_halted hh⟩
  | false =>
    rcases cycle_of_stage ha with ⟨hs, -⟩ | ⟨hs, -⟩ | ⟨-, hc | hc⟩
    · exact ⟨_, clockStep_fetchAddr hh ha hs⟩
    · exact ⟨_, clockStep_fetchInstr hh ha hs⟩
    · obtain ⟨d, hd⟩ := decodeStep_next s
      exact ⟨_, by rw [clockStep_decode hh ha hc, hd, andThen_next]⟩
    · exact ⟨_, clockStep_count hh ha hc⟩

/-- The decode of cycle 5 leaves the core in cycle 5, and what follows it is a count (R80). -/
theorem countX_of_decodeStep {s d : State} (hc : s.cycle = 5) (hd : decodeStep s = .next d) : countX d = advanceCycle d := by
  simp [countX, decodeStep_cycle hd, hc]

/-- The stage work of cycles 3 and 4: a nibble of the byte at the latch, shifted into the instruction register (R79). -/
def readNibble (s : State) : State := advanceCycle (shiftIr (driveBus (togglePhase s) (chipNibble s)))

/-- What a clock step of a running core can be, with the stage work of cycle 5 as a count after the decode (R77 to R81). -/
theorem clockStep_running {s t : State} (hh : s.halted = false) (h : clockStep s = .next t) :
    s.stageAgrees ∧ ∃ u, t = runEndCheck u ∧
      (((s.cycle = 0 ∨ s.cycle = 1 ∨ s.cycle = 2) ∧ u = stepA s) ∨
       ((s.cycle = 3 ∨ s.cycle = 4) ∧ u = readNibble s) ∨
       (s.cycle = 5 ∧ ∃ d, decodeStep s = .next d ∧ u = advanceCycle d) ∨
       (s.cycle = 6 ∧ u = advanceCycle s) ∨
       (s.cycle = 7 ∧ u = endOfInstructionCycle s)) := by
  rcases clockStep_cases h with ⟨ht, -⟩ | ⟨-, ha, u, ht, hu⟩
  · exact absurd (hh.symm.trans ht) (by decide)
  refine ⟨ha, u, ht, ?_⟩
  rcases hu with ⟨hs, hu⟩ | ⟨hs, hu⟩ | ⟨hc, d, hd, hu⟩ | hu | hu
  · rcases cycle_of_stage ha with ⟨-, hc⟩ | ⟨hs', -⟩ | ⟨hs', -⟩
    · exact .inl ⟨hc, hu⟩
    all_goals simp [hs] at hs'
  · rcases cycle_of_stage ha with ⟨hs', -⟩ | ⟨-, hc⟩ | ⟨hs', -⟩
    · simp [hs] at hs'
    · exact .inr (.inl ⟨hc, hu⟩)
    · simp [hs] at hs'
  · exact .inr (.inr (.inl ⟨hc, d, hd, hu.trans (countX_of_decodeStep hc hd)⟩))
  · exact .inr (.inr (.inr (.inl hu)))
  · exact .inr (.inr (.inr (.inr hu)))

/-- What no clock step writes: the accumulator, the carry flag, RAM, program memory and its size (R17, R18, R32, R53). -/
theorem clockStep_keeps {s t : State} (h : clockStep s = .next t) :
    t.acc = s.acc ∧ t.cy = s.cy ∧ t.ram = s.ram ∧ t.rom = s.rom ∧ t.romSizeBytes = s.romSizeBytes := by
  cases hh : s.halted with
  | true =>
    cases (clockStep_of_halted hh).symm.trans h
    exact ⟨rfl, rfl, rfl, rfl, rfl⟩
  | false =>
    obtain ⟨-, u, rfl, ⟨-, rfl⟩ | ⟨-, rfl⟩ | ⟨-, d, hd, rfl⟩ | ⟨-, rfl⟩ | ⟨-, rfl⟩⟩ := clockStep_running hh h
    · simp [stepA]
    · simp [readNibble]
    · rw [decodeStep_frame hd]; simp
    · simp
    · simp

/-- Settles O35: of the five kinds of stage work, only the decode and the post-increment write `pc`. -/
theorem pcMovesOnlyAtDecodeAndAtCycleEnd : Obligations.PcMovesOnlyAtDecodeAndAtCycleEnd := by
  intro s t hh h
  obtain ⟨-, u, rfl, ⟨hc, rfl⟩ | ⟨hc, rfl⟩ | ⟨hc, d, -, -⟩ | ⟨hc, rfl⟩ | ⟨hc, rfl⟩⟩ := clockStep_running hh h
  · exact ⟨fun _ _ => by simp [stepA], fun h7 => by simp [h7] at hc⟩
  · exact ⟨fun _ _ => by simp [readNibble], fun h7 => by simp [h7] at hc⟩
  · exact ⟨fun h5 => absurd hc h5, fun h7 => by simp [h7] at hc⟩
  · exact ⟨fun _ _ => by simp, fun h7 => by simp [h7] at hc⟩
  · exact ⟨fun _ h7 => absurd hc h7, fun _ => by simp [BitVec.toNat_add]⟩

/-- Settles O46: every clock step keeps both flags, so the clock steps of an instruction do. -/
theorem stepLeavesAccumulatorAndCarry : Obligations.StepLeavesAccumulatorAndCarry := by
  intro s t h
  refine runToBoundary_keeps (P := fun u => u.acc = s.acc ∧ u.cy = s.cy) ?_ longestInstruction ⟨rfl, rfl⟩ h
  rintro u v ⟨hacc, hcy⟩ huv
  obtain ⟨ha, hc, -⟩ := clockStep_keeps huv
  exact ⟨ha.trans hacc, hc.trans hcy⟩

end Sys2Proof.Machine
end

section
/-! SUPPORT. The invariant of reachable states (spec/10_state.md R36): it holds at reset and at the start of every image, and every
clock step keeps it. Item 6, about the image, is the comparator's; the rest is proved of the stage work alone, one lemma for each
kind of it. -/

namespace Sys2Proof.Machine

/-! ### The invariant without item 6 -/

/-- The invariant but for item 6 (inside the image): what the comparator does not touch. -/
structure State.CycleInv (s : State) : Prop where
  stageAgrees : s.stageAgrees
  phaseAgrees : s.phaseAgrees
  pendingIsWide : s.pendingIsWide
  neverWrittenIsZero : s.neverWrittenIsZero
  latchHoldsPc : s.latchHoldsPc
  latchFills : s.latchFills
  irFills : s.irFills
  pendingWord : s.pendingWord
  romContract : s.romContract

theorem State.inv_iff (s : State) : s.Inv ↔ s.CycleInv ∧ s.insideImage := by
  constructor
  · rintro ⟨⟨hstage, hphase, hwide, hzero, himage, hlatch⟩, hfills, hir, hword, hrom⟩
    exact ⟨⟨hstage, hphase, hwide, hzero, hlatch, hfills, hir, hword, hrom⟩, himage⟩
  · rintro ⟨⟨hstage, hphase, hwide, hzero, hlatch, hfills, hir, hword, hrom⟩, himage⟩
    exact ⟨⟨hstage, hphase, hwide, hzero, himage, hlatch⟩, hfills, hir, hword, hrom⟩

/-! ### At reset -/

/-- A tuple put through RESET is inside its image, or its image is empty (R35, R36 item 6). -/
theorem insideImage_assertReset (s : State) : (assertReset s).insideImage := by
  intro _
  rcases Nat.eq_zero_or_pos s.romSizeBytes.val with h0 | hpos
  · exact .inr ⟨rfl, Fin.ext h0⟩
  · exact .inl hpos

theorem cycleInv_assertReset {s : State} (hr : s.romContract) : (assertReset s).CycleInv where
  stageAgrees := rfl
  phaseAgrees := by simp [State.phaseAgrees]
  pendingIsWide := by simp [State.pendingIsWide]
  neverWrittenIsZero := ⟨rfl, rfl, rfl⟩
  latchHoldsPc := by simp [State.latchHoldsPc]
  latchFills := by simp [State.latchFills]
  irFills := by simp [State.irFills]
  pendingWord := by simp [State.pendingWord]
  romContract := hr

theorem inv_assertReset {s : State} (hr : s.romContract) : (assertReset s).Inv :=
  (State.inv_iff _).mpr ⟨cycleInv_assertReset hr, insideImage_assertReset s⟩

/-- The reset state's program memory obeys the loader's contract: it lists no byte (log 3). -/
theorem romContract_reset : State.reset.romContract := ⟨Memory.wf_reset, by simp [State.reset]⟩

/-- Loading establishes the loader's contract (R136). -/
theorem romContract_loadImage (s : State) (image : List Byte) : (loadImage s image).romContract := by
  refine ⟨Memory.wf_load rfl 0 image, fun c hc => ?_⟩
  rcases Memory.mem_load hc with h | h
  · simpa [imageSize] using h
  · simp at h

theorem inv_startOf (image : List Byte) : (startOf image).Inv := inv_assertReset (romContract_loadImage _ image)

/-- Settles O50: the reset state is a tuple put through RESET, with a program memory that lists nothing. -/
theorem resetStateHasInvariant : Obligations.ResetStateHasInvariant :=
  ⟨inv_assertReset romContract_reset, fun _ hr => inv_assertReset hr⟩

/-- Settles O51: loading establishes the contract RESET needs. -/
theorem everyImageStartsInInvariant : Obligations.EveryImageStartsInInvariant := inv_startOf

/-- Settles O57: the field lemmas of `assertReset`, and a replicated vector read at an index. -/
theorem resetValues : Obligations.ResetValues := by
  intro s
  refine ⟨fun r => ?_, rfl, rfl, rfl, fun k => ?_, rfl, rfl, rfl, rfl, rfl, rfl, rfl, rfl, rfl,
    fun bank chip reg char => ?_, fun bank chip reg char => ?_, fun a => rfl, rfl, rfl⟩
  · simp [getReg, Vector.get_eq_getElem]
  · simp [Vector.get_eq_getElem]
  · simp [ramMain, Ram.zero, Vector.get_eq_getElem]
  · simp [ramStatus, Ram.zero, Vector.get_eq_getElem]

/-! ### The comparator -/

/-- Behind the comparator a core that runs is inside the image (R87). -/
theorem insideImage_runEndCheck (u : State) : (runEndCheck u).insideImage := by
  intro h
  left
  simpa [pastEnd] using (Bool.or_eq_false_iff.mp h).2

/-- The comparator writes `halted` only. -/
theorem cycleInv_runEndCheck {u : State} (h : u.CycleInv) : (runEndCheck u).CycleInv :=
  ⟨h.stageAgrees, h.phaseAgrees, h.pendingIsWide, h.neverWrittenIsZero, h.latchHoldsPc, h.latchFills, h.irFills,
    h.pendingWord, h.romContract⟩

/-! ### The fetch -/

/-- Outside cycle 4 the parity counter is 0 (R36 item 3). -/
theorem State.CycleInv.nibblePhase_zero {s : State} (h : s.CycleInv) (hc : s.cycle ≠ 4) : s.nibblePhase = 0#1 :=
  (lowBit_cases _).resolve_right fun h1 => hc (h.phaseAgrees.mp h1)

/-- One shift puts the nibble on the bus under the low nibble the register held (R79). -/
theorem shiftIr_ir_eq_join (s : State) : (shiftIr s).ir = joinNibbles (loNibble s.ir) s.bus := by
  apply BitVec.eq_of_getLsbD_eq
  intro j hj
  rw [shiftIr_ir, joinNibbles, BitVec.getLsbD_append]
  interval_cases j <;> simp [loNibble]

/-- Stage A keeps the invariant: each transfer adds a nibble of `pc` to the latch, and the third completes it (R44, R78). -/
theorem cycleInv_stepA {s : State} (h : s.CycleInv) (hc : s.cycle = 0 ∨ s.cycle = 1 ∨ s.cycle = 2) :
    (stepA s).CycleInv where
  stageAgrees := rfl
  phaseAgrees := by
    have hp := h.phaseAgrees
    rcases hc with hc | hc | hc <;> simpa [State.phaseAgrees, stepA, hc] using hp
  pendingIsWide := h.pendingIsWide
  neverWrittenIsZero := h.neverWrittenIsZero
  latchHoldsPc := by
    rcases hc with hc | hc | hc
    · simp [State.latchHoldsPc, stepA, hc]
    · simp [State.latchHoldsPc, stepA, hc]
    · intro _
      rw [stepA, hc]
      exact latch_after_third (h.latchFills.2 hc)
  latchFills := by
    rcases hc with hc | hc | hc
    · refine ⟨fun _ => ?_, by simp [stepA, hc]⟩
      rw [stepA, hc]
      exact latch_after_first s s.pc
    · refine ⟨by simp [stepA, hc], fun _ => ?_⟩
      rw [stepA, hc]
      exact latch_after_second (h.latchFills.1 hc)
    · simp [State.latchFills, stepA, hc]
  irFills := by rcases hc with hc | hc | hc <;> simp [State.irFills, stepA, hc]
  pendingWord := by
    intro hp
    have hw := (h.pendingWord hp).1
    rcases hc with hc | hc | hc <;> simpa [stepA, hc] using hw
  romContract := h.romContract

/-- After a read the register holds its old low nibble above the nibble read. -/
theorem readNibble_ir (s : State) : (readNibble s).ir = joinNibbles (loNibble s.ir) (chipNibble s) :=
  shiftIr_ir_eq_join _

/-- The nibble a read puts in the register, in the terms of the byte at `pc` (R45, R78, R79). -/
theorem State.CycleInv.chipNibble_high {s : State} (h : s.CycleInv) (hc : s.cycle = 3) :
    chipNibble s = hiNibble (romByte s s.pc) := by
  rw [chipNibble_of_phase_zero (h.nibblePhase_zero (by simp [hc])), h.latchHoldsPc (.inl hc)]

theorem State.CycleInv.chipNibble_low {s : State} (h : s.CycleInv) (hc : s.cycle = 4) :
    chipNibble s = loNibble (romByte s s.pc) := by
  rw [chipNibble_of_phase_one (h.phaseAgrees.mpr hc), h.latchHoldsPc (.inr (.inl hc))]

/-- Stage M keeps the invariant: the byte at `pc` comes into the register, high nibble first (R45, R79). -/
theorem cycleInv_readNibble {s : State} (h : s.CycleInv) (hc : s.cycle = 3 ∨ s.cycle = 4) :
    (readNibble s).CycleInv where
  stageAgrees := rfl
  phaseAgrees := by
    rcases hc with hc | hc
    · simp [State.phaseAgrees, readNibble, hc, h.nibblePhase_zero]
    · simp [State.phaseAgrees, readNibble, hc, h.phaseAgrees.mpr hc]
  pendingIsWide := by simpa [State.pendingIsWide, readNibble] using h.pendingIsWide
  neverWrittenIsZero := by simpa [State.neverWrittenIsZero, readNibble] using h.neverWrittenIsZero
  latchHoldsPc := by
    have hl : s.addrLatch = s.pc := h.latchHoldsPc (by tauto)
    intro _
    simpa [readNibble] using hl
  latchFills := by rcases hc with hc | hc <;> simp [State.latchFills, readNibble, hc]
  irFills := by
    rcases hc with hc | hc
    · refine ⟨fun _ => ?_, by simp [readNibble, hc]⟩
      rw [readNibble_ir, loNibble_joinNibbles, h.chipNibble_high hc]
      simp [readNibble]
    · refine ⟨by simp [readNibble, hc], fun _ => ?_⟩
      rw [readNibble_ir, h.irFills.1 hc, h.chipNibble_low hc, joinNibbles_hiNibble_loNibble]
      simp [readNibble]
  pendingWord := by
    intro hp
    have hw := (h.pendingWord hp).1
    rcases hc with hc | hc <;> simpa [readNibble, hc] using hw
  romContract := by simpa [State.romContract, readNibble] using h.romContract

/-! ### The execute stage -/

/-- The decode keeps the invariant: a latch it arms holds the byte at `pc`, which the register holds in cycle 5 (R84, R89). -/
theorem cycleInv_advanceCycle_decode {s d : State} (h : s.CycleInv) (hc : s.cycle = 5)
    (hd : decodeStep s = .next d) : (advanceCycle d).CycleInv := by
  have hcd : d.cycle = 5 := (decodeStep_cycle hd).trans hc
  have hph : d.nibblePhase = 0#1 := (decodeStep_nibblePhase hd).trans (h.nibblePhase_zero (by simp [hc]))
  exact
    { stageAgrees := rfl
      phaseAgrees := by simp [State.phaseAgrees, hcd, hph]
      pendingIsWide := by
        intro hp
        obtain ⟨hw, rfl⟩ := decodeStep_armed hd hp
        exact hw
      neverWrittenIsZero := by
        rw [decodeStep_frame hd]
        exact h.neverWrittenIsZero
      latchHoldsPc := by simp [State.latchHoldsPc, hcd]
      latchFills := by simp [State.latchFills, hcd]
      irFills := by simp [State.irFills, hcd]
      pendingWord := by
        intro hp
        obtain ⟨-, rfl⟩ := decodeStep_armed hd hp
        refine ⟨by simp [hc], fun _ => ?_⟩
        simp [h.irFills.2 hc]
      romContract := by
        rw [decodeStep_frame hd]
        exact h.romContract }

/-- Cycle 6 keeps the invariant: it only counts (R80). -/
theorem cycleInv_advanceCycle_six {s : State} (h : s.CycleInv) (hc : s.cycle = 6) : (advanceCycle s).CycleInv where
  stageAgrees := rfl
  phaseAgrees := by simp [State.phaseAgrees, hc, h.nibblePhase_zero]
  pendingIsWide := h.pendingIsWide
  neverWrittenIsZero := h.neverWrittenIsZero
  latchHoldsPc := by simp [State.latchHoldsPc, hc]
  latchFills := by simp [State.latchFills, hc]
  irFills := by simp [State.irFills, hc]
  pendingWord := by
    intro hp
    have hw := (h.pendingWord hp).2
    simpa [hc] using hw
  romContract := h.romContract

/-- The post-increment keeps the invariant: a pending first word at `pc` is then the byte before `pc` (R81, R89). -/
theorem cycleInv_endOfInstructionCycle {s : State} (h : s.CycleInv) (hc : s.cycle = 7) :
    (endOfInstructionCycle s).CycleInv where
  stageAgrees := rfl
  phaseAgrees := by simp [State.phaseAgrees, hc, h.nibblePhase_zero]
  pendingIsWide := h.pendingIsWide
  neverWrittenIsZero := h.neverWrittenIsZero
  latchHoldsPc := by simp [State.latchHoldsPc]
  latchFills := by simp [State.latchFills]
  irFills := by simp [State.irFills]
  pendingWord := by
    intro hp
    have hw := (h.pendingWord hp).2
    simpa [hc] using hw
  romContract := h.romContract

/-! ### Every clock step, every step, every run -/

/-- Every clock step keeps the invariant: each kind of stage work keeps what the comparator does not touch, and behind the
comparator item 6 holds. -/
theorem inv_clockStep {s t : State} (h : s.Inv) (hst : clockStep s = .next t) : t.Inv := by
  obtain ⟨hi, -⟩ := (State.inv_iff s).mp h
  cases hh : s.halted with
  | true =>
    cases (clockStep_of_halted hh).symm.trans hst
    exact h
  | false =>
    obtain ⟨-, u, rfl, hu⟩ := clockStep_running hh hst
    refine (State.inv_iff _).mpr ⟨cycleInv_runEndCheck ?_, insideImage_runEndCheck u⟩
    rcases hu with ⟨hc, rfl⟩ | ⟨hc, rfl⟩ | ⟨hc, d, hd, rfl⟩ | ⟨hc, rfl⟩ | ⟨hc, rfl⟩
    · exact cycleInv_stepA hi hc
    · exact cycleInv_readNibble hi hc
    · exact cycleInv_advanceCycle_decode hi hc hd
    · exact cycleInv_advanceCycle_six hi hc
    · exact cycleInv_endOfInstructionCycle hi hc

/-- Any number of clock steps from a state with the invariant answers a state with the invariant. -/
theorem clockRun_next_of_inv {s : State} (h : s.Inv) (n : Nat) : ∃ t, clockRun n s = .next t ∧ t.Inv := by
  induction n generalizing s with
  | zero => exact ⟨s, rfl, h⟩
  | succ n ih =>
    obtain ⟨hi, -⟩ := (State.inv_iff s).mp h
    obtain ⟨u, hu⟩ := clockStep_next hi.stageAgrees
    obtain ⟨t, ht, hinv⟩ := ih (inv_clockStep h hu)
    exact ⟨t, by rw [clockRun_succ, hu, andThen_next, ht], hinv⟩

/-- Settles O52: each kind of stage work keeps the invariant without item 6, and the comparator puts item 6 right. -/
theorem clockStepKeepsInvariant : Obligations.ClockStepKeepsInvariant := fun _ _ h hst => inv_clockStep h hst

/-- Settles O53: a step is clock steps, and each of them keeps the invariant. -/
theorem stepKeepsInvariant : Obligations.StepKeepsInvariant :=
  fun _ _ h hst => runToBoundary_keeps (fun _ _ => inv_clockStep) longestInstruction h hst

/-- Settles O54: the start of every image has the invariant, and a run keeps it. -/
theorem reachableStatesSatisfyTheListedItems : Obligations.ReachableStatesSatisfyTheListedItems := by
  intro image n
  obtain ⟨t, ht, hR36, -⟩ := clockRun_next_of_inv (inv_startOf image) n
  exact ⟨t, ht, hR36, t.sp.isLt⟩

end Sys2Proof.Machine
end

section
/-! SUPPORT. What a chip read and a memory read answer, by the parity counter (spec/20_memory.md R45, R47), and that no step
writes a memory (R53, R59). -/

namespace Sys2Proof.Machine

/-! ### Reads -/

/-- Settles O9: a chip read always answers, and each phase of the counter picks its nibble. -/
theorem chipReadGivesNibbleAndToggles : Obligations.ChipReadGivesNibbleAndToggles := by
  intro s
  refine ⟨_, chipReadToBus_eq s, rfl, fun h0 => ?_, fun h1 => ?_⟩
  · exact ⟨chipNibble_of_phase_zero h0, by simp [h0]⟩
  · exact ⟨chipNibble_of_phase_one h1, by simp [h1]⟩

/-- A memory read is two chip reads of the byte at the address, the second in the other phase (R47). -/
theorem memRead_eq (s : State) (a : Addr) :
    memRead s a =
      .next (joinNibbles (chipNibble { s with addrLatch := a }) (chipNibble (togglePhase { s with addrLatch := a })),
        { s with addrLatch := a, bus := chipNibble (togglePhase { s with addrLatch := a }) }) := by
  simp only [memRead, sendAddr_three, chipReadToBus_eq, andThen_next, two_reads]
  rfl

/-- Settles O10: in phase 0 the two chip reads give the high nibble and then the low one; in phase 1 the low one first. -/
theorem memoryReadGivesByteAtAddress : Obligations.MemoryReadGivesByteAtAddress := by
  intro s a
  refine ⟨fun h0 => ?_, fun h1 => ?_⟩
  · have hfirst : chipNibble { s with addrLatch := a } = hiNibble (romByte s a) := chipNibble_of_phase_zero h0
    have hsecond : chipNibble (togglePhase { s with addrLatch := a }) = loNibble (romByte s a) :=
      chipNibble_of_phase_one (by simp [h0])
    rw [memRead_eq, hfirst, hsecond, joinNibbles_hiNibble_loNibble]
  · have hfirst : chipNibble { s with addrLatch := a } = loNibble (romByte s a) := chipNibble_of_phase_one h1
    have hsecond : chipNibble (togglePhase { s with addrLatch := a }) = hiNibble (romByte s a) :=
      chipNibble_of_phase_zero (by simp [h1])
    rw [memRead_eq, hfirst, hsecond]

/-! ### No writes -/

/-- No step writes RAM, program memory or its size: no clock step does (R53, R59). -/
theorem step_keeps_memories {s t : State} (h : step s = .next t) :
    t.ram = s.ram ∧ t.rom = s.rom ∧ t.romSizeBytes = s.romSizeBytes := by
  refine runToBoundary_keeps (P := fun u => u.ram = s.ram ∧ u.rom = s.rom ∧ u.romSizeBytes = s.romSizeBytes) ?_
    longestInstruction ⟨rfl, rfl, rfl⟩ h
  rintro u v ⟨hram, hrom, hsize⟩ huv
  obtain ⟨-, -, hr, hm, hz⟩ := clockStep_keeps huv
  exact ⟨hr.trans hram, hm.trans hrom, hz.trans hsize⟩

/-- Reading a main character looks at RAM only (R40). -/
theorem ramMain_congr {s t : State} (h : t.ram = s.ram) (bank : Fin 8) (chip reg : Fin 4) (char : Fin 16) :
    ramMain t bank chip reg char = ramMain s bank chip reg char := by
  simp [ramMain, h]

/-- Reading a status character looks at RAM only (R40). -/
theorem ramStatus_congr {s t : State} (h : t.ram = s.ram) (bank : Fin 8) (chip reg char : Fin 4) :
    ramStatus t bank chip reg char = ramStatus s bank chip reg char := by
  simp [ramStatus, h]

/-- Settles O45: a step keeps the three memory fields, and a byte or a character is read from them alone. -/
theorem stepWritesNoMemory : Obligations.StepWritesNoMemory := by
  intro s t h
  obtain ⟨hram, hrom, hsize⟩ := step_keeps_memories h
  exact ⟨romByte_congr hrom, hrom, hsize, ramMain_congr hram, ramStatus_congr hram⟩

end Sys2Proof.Machine
end

section
/-! SUPPORT. The decoder and the encoder undo one another, the opcode table names what is decoded, and a second word is data
(spec/30_encoding.md R62 to R72, R76; spec/40_instruction_cycle.md R85, R86). -/

namespace Sys2Proof

/-! ### Decoding an encoding -/

/-- The words of an instruction, with any bytes after them, decode to it: the word helpers undo one another (R62 to R66). -/
theorem decode_encode (i : Instr) (rest : List Byte) : decode (encode i ++ rest) = .ok (i, rest) := by
  cases i with
  | nop | fin | jin | inc | rsv8 | rsv9 | rsva | rsvb | rsvc | rsvd | rsve | rsvf =>
    exact decode_single (by simp [decodeSingle]) rest
  | jcn | fim | jun | jms | isz => exact decode_wide (by simp [decodeWide]) rest

/-- Settles O1: the round trip from an instruction to its words and back. -/
theorem decodeOfEncodeIsInstruction : Obligations.DecodeOfEncodeIsInstruction := decode_encode

/-- Settles O7: each listed list of words is the encoding of the instruction beside it. -/
theorem listedWordsDecodeAsListed : Obligations.ListedWordsDecodeAsListed :=
  ⟨decode_encode (.nop 0xF#4) [], decode_encode (.rsv9 0x5#4) [], decode_encode (.fim 0 0#1 0xA1#8) [],
    decode_encode (.fin 7) [], decode_encode (.jin 1) [], decode_encode (.jcn 0x4#4 0x06#8) [],
    decode_encode (.jun 0xFFF#12) [], decode_encode (.jms 0x234#12) [], decode_encode (.inc 15) [],
    decode_encode (.isz 1 0x02#8) []⟩

/-- An encoding is one word whose OPR is not wide, or two words of which the first has a wide OPR; the length is the
instruction's own (R63, R64). -/
theorem encode_cases (i : Instr) :
    (∃ w, encode i = [w] ∧ i.words = 1 ∧ isWideOpr (hiNibble w) = false) ∨
    (∃ w1 w2, encode i = [w1, w2] ∧ i.words = 2 ∧ isWideOpr (hiNibble w1) = true) := by
  have hd : decode (encode i) = .ok (i, []) := by simpa using decode_encode i []
  rcases decode_cases hd with ⟨w, he, hi⟩ | ⟨w1, w2, he, hw, hi⟩
  · have hw : isWideOpr (hiNibble w) = false := by
      rw [← Bool.not_eq_true, ← decodeSingle_eq_none_iff _ (loNibble w), hi]
      exact Option.some_ne_none i
    exact .inl ⟨w, he, decodeSingle_words hi, hw⟩
  · exact .inr ⟨w1, w2, he, decodeWide_words hi, hw⟩

/-- Settles O4: the two forms of an encoding differ in length and in whether the first OPR is wide. -/
theorem lengthIsDecidedByFirstOpr : Obligations.LengthIsDecidedByFirstOpr := by
  intro i
  rcases encode_cases i with ⟨w, he, hl, hw⟩ | ⟨w1, w2, he, hl, hw⟩
  · exact ⟨w, [], he, by simp [hl], by rw [← isWideOpr_iff]; simp [hl, hw]⟩
  · exact ⟨w1, [w2], he, by simp [hl], by rw [← isWideOpr_iff]; simp [hl, hw]⟩

/-! ### Encoding what was decoded -/

/-- The pair and the low bit are the whole of an OPA, so FIN and JIN keep every bit of their word (R67). -/
theorem pairNibble_of_lowBit {opa : Nibble} {x : BitVec 1} (h : lowBit opa = x) : pairNibble (pairOfOpa opa) x = opa := by
  rw [← h, pairNibble_pairOfOpa]

/-- A single-word instruction's encoding is the word it was decoded from (R62, R66). -/
theorem encode_of_decodeSingle {opr opa : Nibble} {i : Instr} (h : decodeSingle opr opa = some i) :
    encode i = [joinNibbles opr opa] := by
  unfold decodeSingle at h
  split at h
  case h_2 =>
    split at h <;> cases h
    case isTrue hx => simp [encode, pairNibble_of_lowBit hx]
    case isFalse hx => simp [encode, pairNibble_of_lowBit ((lowBit_cases _).resolve_right hx)]
  all_goals cases h <;> rfl

/-- A wide instruction's encoding is the two words it was decoded from (R63, R66). -/
theorem encode_of_decodeWide {popr popa opr2 opa2 : Nibble} {i : Instr}
    (h : decodeWide popr popa opr2 opa2 = some i) :
    encode i = [joinNibbles popr popa, joinNibbles opr2 opa2] := by
  unfold decodeWide at h
  split at h <;> cases h <;> simp [encode]

/-- Words that decode are the encoding of what they decode to, and the bytes left over (R66). -/
theorem encode_of_decode {ws rest : List Byte} {i : Instr} (h : decode ws = .ok (i, rest)) : encode i ++ rest = ws := by
  rcases decode_cases h with ⟨w, rfl, hi⟩ | ⟨w1, w2, rfl, -, hi⟩
  · simp [encode_of_decodeSingle hi]
  · simp [encode_of_decodeWide hi]

/-- Settles O2: the round trip from words to an instruction and back. -/
theorem encodeOfDecodeIsWords : Obligations.EncodeOfDecodeIsWords := fun _ _ _ h => encode_of_decode h

/-! ### The opcode table -/

/-- The rows of the table part the 256 first words (R71, R76). -/
theorem one_row_selects (w : Byte) : (opcodeTable.filter fun r => r.selects w).length = 1 := by
  revert w; decide

/-- A row of the table that selects a first word is the only one. -/
theorem rows_selecting {r : OpcodeRow} {w : Byte} (hr : r ∈ opcodeTable) (hs : r.selects w = true) :
    (opcodeTable.filter fun r => r.selects w) = [r] := by
  obtain ⟨r', hr'⟩ := List.length_eq_one_iff.mp (one_row_selects w)
  have hmem : r ∈ opcodeTable.filter fun r => r.selects w := List.mem_filter.mpr ⟨hr, hs⟩
  rw [hr', List.mem_singleton] at hmem
  rw [hr', hmem]

/-- The shape of the encoding, of every instruction (R63, R66, R76). -/
theorem encodingShape (i : Instr) : Laws.EncodingShape.Statement i :=
  match i with
  | .nop x => Laws.EncodingShape.nop x
  | .jcn cond a8 => Laws.EncodingShape.jcn cond a8
  | .fim p x d8 => Laws.EncodingShape.fim p x d8
  | .fin p => Laws.EncodingShape.fin p
  | .jin p => Laws.EncodingShape.jin p
  | .jun a12 => Laws.EncodingShape.jun a12
  | .jms a12 => Laws.EncodingShape.jms a12
  | .inc reg => Laws.EncodingShape.inc reg
  | .isz reg a8 => Laws.EncodingShape.isz reg a8
  | .rsv8 x => Laws.EncodingShape.rsv8 x
  | .rsv9 x => Laws.EncodingShape.rsv9 x
  | .rsva x => Laws.EncodingShape.rsva x
  | .rsvb x => Laws.EncodingShape.rsvb x
  | .rsvc x => Laws.EncodingShape.rsvc x
  | .rsvd x => Laws.EncodingShape.rsvd x
  | .rsve x => Laws.EncodingShape.rsve x
  | .rsvf x => Laws.EncodingShape.rsvf x

/-- Settles O5: the words begin with the encoding of the decoded instruction, whose first word its own row selects, and no
other row does. -/
theorem decoderFollowsOpcodeTable : Obligations.DecoderFollowsOpcodeTable := by
  intro w1 tail rest i h
  obtain ⟨-, r, hr, hm, hw, w, tl, he, hs⟩ := encodingShape i
  have hcons : w :: (tl ++ rest) = w1 :: tail := by simpa [he] using encode_of_decode h
  obtain ⟨rfl, -⟩ := List.cons.inj hcons
  rw [rows_selecting hr hs, List.map_singleton, hm, hw]

end Sys2Proof

namespace Sys2Proof.Machine

/-! ### No trap -/

/-- Settles O3: the first OPR is wide or not, each half of the decoder accepts every operand, and every meaning answers. -/
theorem everyByteDecodesAndNoneTraps : Obligations.EveryByteDecodesAndNoneTraps := by
  refine ⟨fun w1 => ⟨one_row_selects w1, ?_⟩, fun i s => ?_⟩
  · cases hw : isWideOpr (hiNibble w1) with
    | false =>
      obtain ⟨i, hi⟩ := exists_decodeSingle hw (loNibble w1)
      exact .inl ⟨i, decodeSingle_words hi, decode_single hi⟩
    | true =>
      refine .inr fun w2 => ?_
      obtain ⟨i, hi⟩ := exists_decodeWide hw (loNibble w1) (hiNibble w2) (loNibble w2)
      exact ⟨i, decodeWide_words hi, decode_wide hi⟩
  · obtain ⟨t, ht, -⟩ := exec_next i s
    exact ⟨t, ht⟩

/-- Settles O6: the wide half reads the pair and the ignored bit off the OPA, and the meaning of FIM drops that bit. -/
theorem everyOprTwoIsWideFim : Obligations.EveryOprTwoIsWideFim := by
  intro opa w2
  refine ⟨pairOfOpa opa, lowBit opa, pairOfOpa_val opa, decode_wide (by simp [decodeWide]), fun s => ?_⟩
  rw [exec_fim, exec_fim]

/-! ### The second word -/

/-- After a meaning, clearing the latch leaves the nibbles it held before: no meaning writes it (R86). -/
theorem clearWide_of_exec {i : Instr} {s t : State} (h : exec i s = .next t) :
    clearWide t = { t with wide := { s.wide with pending := false } } := by
  have hw : t.wide = s.wide := by rw [exec_frame h]
  rw [clearWide, hw]

/-- Settles O30: the latch names a wide instruction whatever the byte in `ir`, and the completing decode is its meaning with
the latch cleared behind it. -/
theorem secondWordIsDataAndClearsLatch : Obligations.SecondWordIsDataAndClearsLatch := by
  intro s hp hwide
  obtain ⟨i, hi⟩ := exists_decodeWide (hwide hp) s.wide.opa (hiNibble s.ir) (loNibble s.ir)
  obtain ⟨t, ht, -⟩ := exec_next i s
  refine ⟨i, decode_wide (by simpa using hi) [], decodeWide_words hi, ?_⟩
  rw [decodeStep_pending hp, completeWide_some hi, ht, andThen_next, andThen_next, clearWide_of_exec ht]

end Sys2Proof.Machine
end

section
/-! SUPPORT. The two operations the instruction cycle shares with the jumps: the page rule (spec/40_instruction_cycle.md R92)
and the circular call stack (R94), and the statements on them. -/

namespace Sys2Proof.Machine

/-! ### The page rule -/

theorem addrLow_eq_lastOffset_iff (a : Addr) : addrLow a = Config.lastOffset ↔ a.toNat % 256 = 255 := by
  rw [← BitVec.toNat_inj, addrLow_toNat]; rfl

theorem addrTop_eq_lastBank_iff (a : Addr) : addrTop a = Config.lastBank ↔ a.toNat / 256 = 15 := by
  rw [← BitVec.toNat_inj, addrTop_toNat]; rfl

/-- Off the last offset, and in the last bank, the page rule stays in the bank of `pc` (R92, D9). -/
theorem pageRuleBank_stays {s : State} (h : s.pc.toNat % 256 = 255 → s.pc.toNat / 256 = 15) :
    (pageRuleBank s).toNat = s.pc.toNat / 256 := by
  have hstay : ¬ (addrLow s.pc = Config.lastOffset ∧ addrTop s.pc ≠ Config.lastBank) := fun hc =>
    hc.2 ((addrTop_eq_lastBank_iff s.pc).mpr (h ((addrLow_eq_lastOffset_iff s.pc).mp hc.1)))
  rw [pageRuleBank, if_neg hstay, addrTop_toNat]

/-- At the last offset below the last bank it moves on to the next bank (R92). -/
theorem pageRuleBank_moves {s : State} (ho : s.pc.toNat % 256 = 255) (hb : s.pc.toNat / 256 < 15) :
    (pageRuleBank s).toNat = s.pc.toNat / 256 + 1 := by
  have hmove : addrLow s.pc = Config.lastOffset ∧ addrTop s.pc ≠ Config.lastBank :=
    ⟨(addrLow_eq_lastOffset_iff s.pc).mpr ho, fun hc => hb.ne ((addrTop_eq_lastBank_iff s.pc).mp hc)⟩
  rw [pageRuleBank, if_pos hmove, BitVec.toNat_add, addrTop_toNat]
  exact Nat.mod_eq_of_lt (Nat.succ_lt_succ hb)

/-- Settles O21: the page rule moves at the last offset below bank 15, and stays everywhere else. -/
theorem pageRuleMovesOnAtOffset255 : Obligations.PageRuleMovesOnAtOffset255 := fun _ =>
  ⟨pageRuleBank_moves, fun _ hb => (pageRuleBank_stays fun _ => hb).trans hb,
    fun ho => pageRuleBank_stays fun h => absurd h ho⟩

/-! ### The call stack -/

@[simp] theorem nextSp_ne (sp : Fin 3) : nextSp sp ≠ sp := by
  revert sp; decide

@[simp] theorem nextSp_nextSp_ne (sp : Fin 3) : nextSp (nextSp sp) ≠ sp := by
  revert sp; decide

/-- Three pushes bring the index round (R94). -/
@[simp] theorem nextSp_three (sp : Fin 3) : nextSp (nextSp (nextSp sp)) = sp := by
  revert sp; decide

/-- The entry just pushed (R94). -/
theorem stackPush_get_same (s : State) (v : Addr) : (stackPush s v).stack.get s.sp = v := by
  simp [Vector.get_eq_getElem]

/-- A push leaves the other two entries alone (R94). -/
theorem stackPush_get_other (s : State) (v : Addr) {k : Fin 3} (h : k ≠ s.sp) :
    (stackPush s v).stack.get k = s.stack.get k := by
  have hne : s.sp.val ≠ k.val := fun e => h (Fin.ext e.symm)
  simp [Vector.get_eq_getElem, hne]

/-- Settles O22: each entry was written by the last push whose index it has, and three pushes go round. -/
theorem fourthPushOverwritesFirst : Obligations.FourthPushOverwritesFirst := by
  intro s a b c d
  have hround : (stackPush (stackPush (stackPush s a) b) c).sp = s.sp := nextSp_three s.sp
  refine ⟨hround, ?_, ?_, ?_, ?_⟩
  · rw [stackPush_get_other _ c (nextSp_nextSp_ne s.sp).symm, stackPush_get_other _ b (nextSp_ne s.sp).symm,
      stackPush_get_same]
  · conv_lhs => rw [← hround]
    exact stackPush_get_same _ d
  · rw [stackPush_get_other _ d (hround ▸ nextSp_ne s.sp), stackPush_get_other _ c (nextSp_ne (nextSp s.sp)).symm]
    exact stackPush_get_same (stackPush s a) b
  · rw [stackPush_get_other _ d (hround ▸ nextSp_nextSp_ne s.sp)]
    exact stackPush_get_same (stackPush (stackPush s a) b) c

end Sys2Proof.Machine
end

section
/-! SUPPORT. The decode step and the clock step, cycle by cycle (spec/40_instruction_cycle.md R77 to R88): what the decode of
a first word does, what each clock cycle answers, how the position and the wide latch move. -/

namespace Sys2Proof.Machine

/-! ### The decode of a first word -/

/-- Settles O29: with the latch clear, a wide OPR takes the arming branch of the decode. -/
theorem wideFirstWordOnlyArmsLatch : Obligations.WideFirstWordOnlyArmsLatch :=
  fun _ hp hw => decodeStep_first hp ((isWideOpr_iff _).mpr hw)

/-- Settles O31: a byte that decodes alone is a single word, so the decode is its meaning, whose frame holds the latch. -/
theorem singleWordIsExecutedAtOnce : Obligations.SingleWordIsExecutedAtOnce := by
  intro s i hp hd
  rcases decode_cases hd with ⟨w, hw, hi⟩ | ⟨w1, w2, hw, -, -⟩
  · obtain ⟨rfl, -⟩ := List.cons.inj hw
    have he := decodeStep_single hp hi
    obtain ⟨t, ht, -⟩ := exec_next i s
    exact ⟨he, t, he.trans ht, by rw [exec_frame ht]⟩
  · simp at hw

/-! ### A halted core, and the comparator -/

/-- A step is at most sixteen clock steps (R89, R152). -/
theorem step_eq (s : State) : step s = runToBoundary 16 s := rfl

/-- Settles O32: the first clock step of a halted core leaves it halted, and the step stops there. -/
theorem haltedCoreDoesNotStep : Obligations.HaltedCoreDoesNotStep := by
  intro s h
  refine ⟨clockStep_of_halted h, ?_⟩
  rw [step_eq, runToBoundary_succ, clockStep_of_halted h, andThen_next, h]
  rfl

/-- A clock step of a running core is stage work that does not touch `halted`, and then the comparator (R77, R87). -/
theorem clockStep_comparator {s : State} (hh : s.halted = false) (ha : s.stageAgrees) :
    ∃ u, u.halted = false ∧ clockStep s = .next (runEndCheck u) := by
  obtain ⟨t, ht⟩ := clockStep_next ha
  obtain ⟨-, u, rfl, hu⟩ := clockStep_running hh ht
  refine ⟨u, ?_, ht⟩
  rcases hu with ⟨-, rfl⟩ | ⟨-, rfl⟩ | ⟨-, d, hd, rfl⟩ | ⟨-, rfl⟩ | ⟨-, rfl⟩
  · exact hh
  · exact hh
  · rw [decodeStep_frame hd]; exact hh
  · exact hh
  · exact hh

/-- Settles O34: the stage work leaves `halted` clear, so after it `halted` is the comparison alone. -/
theorem comparatorRunsAfterEveryClockStep : Obligations.ComparatorRunsAfterEveryClockStep := by
  intro s hh ha
  obtain ⟨u, hu, hs⟩ := clockStep_comparator hh ha
  obtain ⟨-, -, -, -, hsize⟩ := clockStep_keeps hs
  exact ⟨_, hs, by rw [← hsize]; simp [runEndCheck_of_running hu]⟩

/-! ### Cycle by cycle -/

/-- Clock cycles 0 to 4 are the fetch's stage work, and the comparator (R78, R79). -/
theorem clockStep_fetch {s : State} (hh : s.halted = false) (ha : s.stageAgrees) (hc : s.cycle.val ≤ 4) :
    clockStep s = .next (runEndCheck (stepA s)) ∨ clockStep s = .next (runEndCheck (readNibble s)) := by
  rcases cycle_of_stage ha with ⟨hs, -⟩ | ⟨hs, -⟩ | ⟨-, h | h | h⟩
  · exact .inl (clockStep_fetchAddr hh ha hs)
  · exact .inr (clockStep_fetchInstr hh ha hs)
  all_goals simp [h] at hc

/-- Inside the execute stage a count moves the cycle only (R80). -/
theorem advanceCycle_execute {s : State} (hs : s.stage = .execute) (hc : s.cycle = 5 ∨ s.cycle = 6) :
    advanceCycle s = { s with cycle := s.cycle + 1 } := by
  have hnext : stageOfCycle (s.cycle + 1) = s.stage := by rcases hc with h | h <;> rw [h, hs] <;> rfl
  rw [advanceCycle, hnext]

/-- Clock cycle 5: one decode, and the comparator (R80). -/
theorem clockStep_five {s d : State} (hh : s.halted = false) (ha : s.stageAgrees) (hc : s.cycle = 5)
    (hd : decodeStep s = .next d) : clockStep s = .next (runEndCheck { d with cycle := 6 }) := by
  have hcd : d.cycle = 5 := (decodeStep_cycle hd).trans hc
  have hsd : d.stage = .execute := by
    rw [decodeStep_frame hd]
    exact ha.trans (by rw [hc]; rfl)
  rw [clockStep_decode hh ha hc, hd, andThen_next, countX_of_decodeStep hc hd, advanceCycle_execute hsd (.inl hcd), hcd]
  rfl

/-- Clock cycle 6 counts (R80). -/
theorem clockStep_six {s : State} (hh : s.halted = false) (ha : s.stageAgrees) (hc : s.cycle = 6) :
    clockStep s = .next (runEndCheck { s with cycle := 7 }) := by
  have hs : s.stage = .execute := ha.trans (by rw [hc]; rfl)
  rw [clockStep_count hh ha (.inl hc), countX, if_neg (by simp [hc]), advanceCycle_execute hs (.inr hc), hc]
  rfl

/-- Clock cycle 7 ends the instruction cycle (R81). -/
theorem clockStep_seven {s : State} (hh : s.halted = false) (ha : s.stageAgrees) (hc : s.cycle = 7) :
    clockStep s = .next (runEndCheck (endOfInstructionCycle s)) := by
  rw [clockStep_count hh ha (.inr hc), countX, if_pos hc]

/-- Settles O36: each cycle's stage work, and the comparator as the comparison of the `pc` it leaves. -/
theorem decodeHappensInFirstExecuteCycleOnly : Obligations.DecodeHappensInFirstExecuteCycleOnly := by
  intro s hh ha
  refine ⟨fun hc => ?_, fun hc => ?_, fun hc => ?_, fun hc => ?_⟩
  · rcases clockStep_fetch hh ha hc with h | h
    · refine ⟨_, h, rfl, ?_⟩
      rw [runEndCheck_of_running (s := stepA s) hh]
      rfl
    · refine ⟨_, h, rfl, ?_⟩
      rw [runEndCheck_of_running (s := readNibble s) hh]
      rfl
  · obtain ⟨d, hd⟩ := decodeStep_next s
    have hhd : d.halted = false := by rw [decodeStep_frame hd]; exact hh
    refine ⟨d, hd, ?_⟩
    rw [clockStep_five hh ha hc hd, runEndCheck_of_running (s := { d with cycle := 6 }) hhd]
  · rw [clockStep_six hh ha hc, runEndCheck_of_running (s := { s with cycle := 7 }) hh]
  · rw [clockStep_seven hh ha hc, runEndCheck_of_running (s := endOfInstructionCycle s) hh]
    rfl

/-! ### How the position and the wide latch move -/

/-- A core that runs after a clock step ran before it (R88). -/
theorem running_of_clockStep {s t : State} (ht : t.halted = false) (h : clockStep s = .next t) : s.halted = false := by
  cases hh : s.halted with
  | false => rfl
  | true =>
    cases (clockStep_of_halted hh).symm.trans h
    exact absurd (hh.symm.trans ht) (by decide)

/-- A clock step of a running core moves on to the next cycle index, with its stage (R25, R36 item 1). -/
theorem clockStep_position {s t : State} (hh : s.halted = false) (h : clockStep s = .next t) :
    t.cycle = s.cycle + 1 ∧ t.stageAgrees := by
  obtain ⟨-, u, rfl, ⟨-, rfl⟩ | ⟨-, rfl⟩ | ⟨-, d, hd, rfl⟩ | ⟨-, rfl⟩ | ⟨hc, rfl⟩⟩ := clockStep_running hh h
  · exact ⟨rfl, rfl⟩
  · exact ⟨rfl, rfl⟩
  · exact ⟨by simp [decodeStep_cycle hd], rfl⟩
  · exact ⟨rfl, rfl⟩
  · exact ⟨by rw [hc]; rfl, rfl⟩

/-- Outside the decode's cycle no clock step writes the wide latch (R84, R86). -/
theorem clockStep_wide {s t : State} (hc : s.cycle ≠ 5) (h : clockStep s = .next t) : t.wide = s.wide := by
  cases hh : s.halted with
  | true =>
    cases (clockStep_of_halted hh).symm.trans h
    rfl
  | false =>
    obtain ⟨-, u, rfl, ⟨-, rfl⟩ | ⟨-, rfl⟩ | ⟨h5, -⟩ | ⟨-, rfl⟩ | ⟨-, rfl⟩⟩ := clockStep_running hh h
    · rfl
    · rfl
    · exact absurd h5 hc
    · rfl
    · rfl

/-- The completing decode's clock step clears the wide latch (R86, D1). -/
theorem clockStep_clears_wide {s t : State} (hh : s.halted = false) (hc : s.cycle = 5) (hp : s.wide.pending = true)
    (h : clockStep s = .next t) : t.wide.pending = false := by
  obtain ⟨d, hd⟩ := decodeStep_next s
  cases (clockStep_five hh (stageAgrees_of_clockStep hh h) hc hd).symm.trans h
  by_contra hn
  have hdp : d.wide.pending = true := by simpa using hn
  rcases decodeStep_cases hd with ⟨-, ⟨i, u, -, -, rfl⟩ | rfl⟩ | ⟨hs, -⟩ | ⟨hs, -⟩
  · simp at hdp
  · simp at hdp
  · simp [hp] at hs
  · simp [hp] at hs

/-- The clock steps left before the next decode's own (R80). -/
def clockStepsToDecode (s : State) : Nat := (5 - s.cycle).val

/-- Up to the next decode the wide latch stays as it is. -/
theorem clockRun_wide {k : Nat} {s : State} (ha : s.stageAgrees) (hk : k ≤ clockStepsToDecode s) :
    ∃ t, clockRun k s = .next t ∧ t.wide = s.wide := by
  induction k generalizing s with
  | zero => exact ⟨s, rfl, rfl⟩
  | succ k ih =>
    cases hh : s.halted with
    | true => exact ⟨s, clockRun_of_halted hh _, rfl⟩
    | false =>
      have hcount : ∀ c : Fin 8, 0 < (5 - c).val → c ≠ 5 ∧ (5 - c).val = (5 - (c + 1)).val + 1 := by decide
      obtain ⟨hc, hnext⟩ := hcount s.cycle (Nat.zero_lt_of_lt hk)
      obtain ⟨u, hu⟩ := clockStep_next ha
      obtain ⟨hcu, hau⟩ := clockStep_position hh hu
      have hle : k ≤ clockStepsToDecode u := by
        rw [clockStepsToDecode, hcu]
        exact Nat.le_of_succ_le_succ (hk.trans_eq hnext)
      obtain ⟨t, ht, hw⟩ := ih hau hle
      exact ⟨t, by rw [clockRun_succ, hu, andThen_next, ht], hw.trans (clockStep_wide hc hu)⟩

end Sys2Proof.Machine
end

section
/-! SUPPORT. The net effect of an instruction cycle (spec/40_instruction_cycle.md R96): the fetch, the execute stage from the
decode on, the two cycles of a wide instruction (R89, R90), and how long its latch is set (R86). -/

namespace Sys2Proof.Machine

/-! ### The fetch -/

/-- A running core in a stage that agrees, with `pc` inside the image: the fetch stays so from its beginning to its end. -/
def State.RunsInside (s : State) : Prop := s.halted = false ∧ s.stageAgrees ∧ s.pc.toNat < s.romSizeBytes.val

theorem runsInside_of_ready {s : State} (h : s.ready) : s.RunsInside := by
  obtain ⟨hc, hs, hh, -, hin⟩ := h
  exact ⟨hh, hs.trans (by rw [hc]; rfl), hin⟩

/-- Inside the image a clock step of stage A is its stage work alone (R78). -/
theorem clockStep_stepA {s : State} (h : s.RunsInside) (hc : s.cycle.val < 3) :
    clockStep s = .next (stepA s) ∧ (stepA s).RunsInside := by
  obtain ⟨hh, ha, hin⟩ := h
  exact ⟨clockStep_fetchAddr_inside hh ha (ha.trans (if_pos hc)) hin, hh, rfl, hin⟩

/-- Inside the image a clock step of stage M is its stage work alone (R79). -/
theorem clockStep_readNibble {s : State} (h : s.RunsInside) (hc : s.cycle = 3 ∨ s.cycle = 4) :
    clockStep s = .next (readNibble s) ∧ (readNibble s).RunsInside := by
  obtain ⟨hh, ha, hin⟩ := h
  have hs : s.stage = .fetchInstr := ha.trans (by rcases hc with hc | hc <;> rw [hc] <;> rfl)
  exact ⟨clockStep_fetchInstr_inside hh ha hs hin, hh, rfl, hin⟩

/-- Sending a nibble and counting are independent of each other. -/
theorem sendAddrNibble_advanceCycle (s : State) (a : Addr) (k : Nat) :
    sendAddrNibble (advanceCycle s) a k = advanceCycle (sendAddrNibble s a k) := rfl

/-- The three cycles of stage A send the whole address (R44, R78). -/
theorem stepA_three {s : State} (hc : s.cycle = 0) :
    stepA (stepA (stepA s)) = { s with addrLatch := s.pc, bus := addrTop s.pc, cycle := 3, stage := .fetchInstr } := by
  have h1 : ((0 + 1 : Fin 8) : Nat) = 1 := rfl
  have h2 : ((0 + 1 + 1 : Fin 8) : Nat) = 2 := rfl
  have h3 : (0 + 1 + 1 + 1 : Fin 8) = 3 := rfl
  have hm : stageOfCycle 3 = .fetchInstr := rfl
  simp only [stepA, sendAddrNibble_cycle, sendAddrNibble_pc, advanceCycle_cycle, advanceCycle_pc,
    sendAddrNibble_advanceCycle, hc, Fin.val_zero, h1, h2, sendAddr_three]
  simp only [advanceCycle, h3, hm]

/-- The two cycles of stage M read the byte at the latch, high nibble first (R45, R79). -/
theorem readNibble_two {s : State} (hc : s.cycle = 3) (hp : s.nibblePhase = 0#1) :
    readNibble (readNibble s) =
      { s with ir := romByte s s.addrLatch, bus := loNibble (romByte s s.addrLatch), cycle := 5, stage := .execute } := by
  have hfirst : chipNibble s = hiNibble (romByte s s.addrLatch) := chipNibble_of_phase_zero hp
  have hsecond : chipNibble (readNibble s) = loNibble (romByte s s.addrLatch) :=
    chipNibble_of_phase_one (by simp [readNibble, hp])
  have hir : (readNibble (readNibble s)).ir = romByte s s.addrLatch := by
    rw [readNibble_ir, readNibble_ir, loNibble_joinNibbles, hfirst, hsecond, joinNibbles_hiNibble_loNibble]
  apply State.ext
  case ir => exact hir
  case bus => exact hsecond
  case cycle => simp [readNibble, hc]
  case stage =>
    show stageOfCycle (s.cycle + 1 + 1) = .execute
    rw [hc]
    rfl
  case nibblePhase => simp [readNibble, hp]
  all_goals simp [readNibble]

/-- The work of stages A and M from the beginning of an instruction cycle is the fetch (R96 item 1). -/
theorem readNibble_two_stepA_three {s : State} (hc : s.cycle = 0) (hp : s.nibblePhase = 0#1) :
    readNibble (readNibble (stepA (stepA (stepA s)))) = fetched s := by
  rw [stepA_three hc]
  exact readNibble_two rfl hp

/-- One clock step, and then the others. -/
theorem clockRun_of_next {s t : State} (h : clockStep s = .next t) (n : Nat) : clockRun (n + 1) s = clockRun n t := by
  rw [clockRun_succ, h, andThen_next]

/-- Five clock steps from the beginning of an instruction cycle are the fetch (R96 item 1). -/
theorem clockRun_five {s : State} (h : s.ready) : clockRun 5 s = .next (fetched s) := by
  have hr := runsInside_of_ready h
  obtain ⟨hc, -, -, hp, -⟩ := h
  obtain ⟨h0, hr0⟩ := clockStep_stepA hr (by simp [hc])
  obtain ⟨h1, hr1⟩ := clockStep_stepA hr0 (by simp [stepA, hc])
  obtain ⟨h2, hr2⟩ := clockStep_stepA hr1 (by simp [stepA, hc])
  obtain ⟨h3, hr3⟩ := clockStep_readNibble hr2 (.inl (by rw [stepA_three hc]))
  obtain ⟨h4, -⟩ := clockStep_readNibble hr3 (.inr (by rw [stepA_three hc]; rfl))
  rw [clockRun_of_next h0, clockRun_of_next h1, clockRun_of_next h2, clockRun_of_next h3, clockRun_of_next h4,
    clockRun_zero, readNibble_two_stepA_three hc hp]

/-- Settles O37: three address transfers and two nibble reads are the fetch. -/
theorem fiveClockStepsFetchTheByteAtPc : Obligations.FiveClockStepsFetchTheByteAtPc := fun _ h => clockRun_five h

/-! ### From the decode on -/

theorem finished_of_past {s : State} (h : pastEnd s = true) : finished s = { s with cycle := 6, halted := true } :=
  if_pos h

theorem finished_of_inside {s : State} (h : pastEnd s = false) : finished s = runEndCheck (endOfInstructionCycle s) :=
  if_neg (by simp [h])

/-- An instruction cycle ends at its own end, or the run ends at the decode (R96 items 2 and 3, R98). -/
theorem finished_halted_or_cycle (s : State) : (finished s).halted = true ∨ (finished s).cycle = 0 := by
  cases hp : pastEnd s with
  | true => exact .inl (by rw [finished_of_past hp])
  | false => exact .inr (by rw [finished_of_inside hp]; rfl)

/-- Three clock steps from the decode's cycle on are one decode and the end of the instruction cycle (R96 items 2 and 3). -/
theorem clockRun_three_of_execute {s : State} (hh : s.halted = false) (ha : s.stageAgrees) (hc : s.cycle = 5) :
    clockRun 3 s = andThen (decodeStep s) fun d => .next (finished d) := by
  obtain ⟨d, hd⟩ := decodeStep_next s
  obtain ⟨hhd, hsd⟩ : d.halted = false ∧ d.stage = .execute := by
    rw [decodeStep_frame hd]
    exact ⟨hh, ha.trans (by rw [hc]; rfl)⟩
  rw [hd, andThen_next, clockRun_of_next (clockStep_five hh ha hc hd),
    runEndCheck_of_running (s := { d with cycle := 6 }) hhd]
  cases hp : pastEnd d with
  | true =>
    have hend : d.romSizeBytes.val ≤ d.pc.toNat := of_decide_eq_true hp
    rw [finished_of_past hp, decide_eq_true hend]
    exact clockRun_of_halted rfl 2
  | false =>
    have hin : ¬ d.romSizeBytes.val ≤ d.pc.toNat := of_decide_eq_false hp
    have hrun : ∀ c : Fin 8, runEndCheck { d with cycle := c } = { d with cycle := c } :=
      fun c => runEndCheck_of_inside hhd (Nat.lt_of_not_le hin)
    have h6 := clockStep_six (s := { d with cycle := 6 }) hhd hsd rfl
    have h7 := clockStep_seven (s := { d with cycle := 7 }) hhd hsd rfl
    rw [hrun 7] at h6
    rw [finished_of_inside hp, decide_eq_false hin, ← hhd, clockRun_of_next h6, clockRun_of_next h7]
    rfl

/-- Eight clock steps from the beginning of an instruction cycle are the cycle (R96). -/
theorem clockRun_eight {s : State} (h : s.ready) : clockRun 8 s = instructionCycle s := by
  obtain ⟨hh, -, -⟩ := runsInside_of_ready h
  rw [clockRun_add 5 3, clockRun_five h, andThen_next]
  exact clockRun_three_of_execute hh rfl rfl

/-- Settles O38: the five steps of the fetch, and the three of the execute stage. -/
theorem eightClockStepsAreOneInstructionCycle : Obligations.EightClockStepsAreOneInstructionCycle :=
  fun _ h => clockRun_eight h

/-! ### The two cycles of a wide instruction -/

/-- The instruction cycle of a wide first word remembers it (R84, R89). -/
theorem instructionCycle_first {s : State} (hp : s.wide.pending = false)
    (hw : isWideOpr (hiNibble (romByte s s.pc)) = true) : instructionCycle s = .next (firstWordDone s) := by
  rw [instructionCycle, decodeStep_first (s := fetched s) hp hw]
  rfl

/-- The first cycle of a wide instruction is never cut off at its decode, which leaves `pc` inside the image (R84). -/
theorem firstWordDone_eq {s : State} (h : s.ready) :
    firstWordDone s =
      runEndCheck (endOfInstructionCycle
        (armWide (fetched s) (hiNibble (romByte s s.pc)) (loNibble (romByte s s.pc)))) := by
  obtain ⟨-, -, hpc⟩ := runsInside_of_ready h
  exact finished_of_inside (pastEnd_eq_false hpc)

/-- Where the second word is inside the image, the first cycle ends with the post-increment (R89). -/
theorem firstWordDone_of_inside {s : State} (h : s.ready) (hin : (s.pc + 1#12).toNat < s.romSizeBytes.val) :
    firstWordDone s =
      endOfInstructionCycle (armWide (fetched s) (hiNibble (romByte s s.pc)) (loNibble (romByte s s.pc))) := by
  obtain ⟨hh, -, -⟩ := runsInside_of_ready h
  rw [firstWordDone_eq h]
  exact runEndCheck_of_inside hh hin

/-- Where it is beyond the image, the run ends with the first cycle (R142). -/
theorem firstWordDone_of_past {s : State} (h : s.ready) (hend : s.romSizeBytes.val ≤ (s.pc + 1#12).toNat) :
    (firstWordDone s).halted = true := by
  rw [firstWordDone_eq h, runEndCheck_halted]
  exact Bool.or_eq_true_iff.mpr (.inr (decide_eq_true hend))

theorem firstWordDone_wide (s : State) :
    (firstWordDone s).wide =
      { pending := true, opr := hiNibble (romByte s s.pc), opa := loNibble (romByte s s.pc) } := by
  simp [firstWordDone]

/-- The second cycle begins as the first did, one byte on (R89). -/
theorem ready_firstWordDone {s : State} (h : s.ready) (hin : (s.pc + 1#12).toNat < s.romSizeBytes.val) :
    (firstWordDone s).ready := by
  rw [firstWordDone_of_inside h hin]
  obtain ⟨-, -, hh, hp, -⟩ := h
  exact ⟨rfl, rfl, hh, hp, hin⟩

/-- Thirteen clock steps bring a wide instruction to its completing decode (R89, R90). -/
theorem clockRun_thirteen {s : State} (h : s.ready) (hp : s.wide.pending = false)
    (hw : isWideOpr (hiNibble (romByte s s.pc)) = true) (hin : (s.pc + 1#12).toNat < s.romSizeBytes.val) :
    clockRun 13 s = .next (fetched (firstWordDone s)) := by
  rw [clockRun_add 8 5, clockRun_eight h, instructionCycle_first hp hw, andThen_next,
    clockRun_five (ready_firstWordDone h hin)]

/-- Settles O56: the fetch of the second word, from the state the first cycle ended in. -/
theorem completingDecodeSeesBothWords : Obligations.CompletingDecodeSeesBothWords := by
  intro s h hp hw hin
  rw [clockRun_thirteen h hp ((isWideOpr_iff _).mpr hw) hin, firstWordDone_of_inside h hin]
  rfl

/-- After the decode of a wide first word, the sixth clock step, the latch is set (R84). -/
theorem clockRun_six_of_wide {s : State} (h : s.ready) (hp : s.wide.pending = false)
    (hw : isWideOpr (hiNibble (romByte s s.pc)) = true) :
    ∃ t, clockRun 6 s = .next t ∧ t.cycle = 6 ∧ t.stageAgrees ∧ t.wide.pending = true := by
  obtain ⟨hh, -, -⟩ := runsInside_of_ready h
  have h6 := clockStep_five (s := fetched s) hh rfl rfl (decodeStep_first (s := fetched s) hp hw)
  exact ⟨_, by rw [clockRun_add 5 1, clockRun_five h, andThen_next, clockRun_of_next h6, clockRun_zero], rfl, rfl, rfl⟩

/-- Settles O39: the latch is written at the two decodes only, set at the sixth clock step and cleared at the fourteenth. -/
theorem wideLatchIsSetForEightClockSteps : Obligations.WideLatchIsSetForEightClockSteps := by
  intro s k h hp hwide hin hk
  have hw := (isWideOpr_iff _).mpr hwide
  obtain ⟨-, ha, -⟩ := runsInside_of_ready h
  have hcases : k ≤ 5 ∨ (∃ j ≤ 7, k = 6 + j) ∨ k = 14 := by
    by_cases h5 : k ≤ 5
    · exact .inl h5
    · by_cases h14 : k = 14
      · exact .inr (.inr h14)
      · exact .inr (.inl ⟨k - 6, by omega, by omega⟩)
  rcases hcases with h5 | ⟨j, hj, rfl⟩ | rfl
  · have hto : clockStepsToDecode s = 5 := by rw [clockStepsToDecode, h.1]; rfl
    obtain ⟨t, ht, hwt⟩ := clockRun_wide ha (hto ▸ h5)
    exact ⟨t, ht, by simp only [hwt, hp, Bool.false_eq_true, false_iff]; omega⟩
  · obtain ⟨u, hu, hcu, hau, hpu⟩ := clockRun_six_of_wide h hp hw
    have hto : clockStepsToDecode u = 7 := by rw [clockStepsToDecode, hcu]; rfl
    obtain ⟨t, ht, hwt⟩ := clockRun_wide hau (hto ▸ hj)
    exact ⟨t, by rw [clockRun_add, hu, andThen_next, ht], by simp only [hwt, hpu, true_iff]; omega⟩
  · obtain ⟨hh2, -, -⟩ := runsInside_of_ready (ready_firstWordDone h hin)
    obtain ⟨t, ht⟩ := clockStep_next (s := fetched (firstWordDone s)) rfl
    have hclear : t.wide.pending = false :=
      clockStep_clears_wide (s := fetched (firstWordDone s)) hh2 rfl (by simp [firstWordDone_wide]) ht
    refine ⟨t, ?_, by simp [hclear]⟩
    rw [clockRun_add 13 1, clockRun_thirteen h hp hw hin, andThen_next, clockRun_of_next ht]
    rfl

end Sys2Proof.Machine
end

section
/-! SUPPORT. The step of one instruction (spec/40_instruction_cycle.md R97): its clock steps taken cycle by cycle, the
instruction it runs, where it ends (R89, R98, R142), and where a JUN ends (R116, R141). -/

namespace Sys2Proof.Machine

/-! ### To the end of the current instruction -/

theorem atBoundary_iff (s : State) : atBoundary s = true ↔ s.cycle = 0 ∧ s.wide.pending = false := by
  simp [atBoundary]

/-- What is done after each clock step: stop where the run or the instruction has ended, else go on. -/
def goOn (n : Nat) (t : State) : Host.Outcome State Fault Refusal :=
  if t.halted || atBoundary t then .next t else runToBoundary n t

theorem runToBoundary_eq_goOn (n : Nat) (s : State) : runToBoundary (n + 1) s = andThen (clockStep s) (goOn n) :=
  runToBoundary_succ n s

theorem goOn_of_stop {t : State} (h : t.halted = true ∨ atBoundary t = true) (n : Nat) : goOn n t = .next t :=
  if_pos (Bool.or_eq_true_iff.mpr h)

theorem goOn_of_running {t : State} (hh : t.halted = false) (hb : atBoundary t = false) (n : Nat) :
    goOn n t = runToBoundary n t :=
  if_neg (by simp [hh, hb])

theorem goOn_zero (t : State) : goOn 0 t = .next t := by
  unfold goOn
  split <;> rfl

/-- Within an instruction cycle nothing but the end of the run stops a step, so it takes the clock steps to the cycle's end. -/
theorem runToBoundary_of_cycle {m : Nat} {s : State} (hm : s.cycle.val + m < 8) (n : Nat) :
    runToBoundary (m + 1 + n) s = andThen (clockRun (m + 1) s) (goOn n) := by
  induction m generalizing s with
  | zero =>
    rw [Nat.add_right_comm, runToBoundary_eq_goOn, clockRun_succ, andThen_assoc, Nat.zero_add]
    rfl
  | succ m ih =>
    rw [Nat.add_right_comm, runToBoundary_eq_goOn, clockRun_succ, andThen_assoc]
    cases hst : clockStep s with
    | fault r => rfl
    | refused r => rfl
    | next t =>
      rw [andThen_next, andThen_next]
      cases ht : t.halted with
      | true => rw [goOn_of_stop (.inl ht), clockRun_of_halted ht, andThen_next, goOn_of_stop (.inl ht)]
      | false =>
        obtain ⟨hct, -⟩ := clockStep_position (running_of_clockStep ht hst) hst
        have hval : t.cycle.val = s.cycle.val + 1 := by rw [hct, Fin.val_add_one_of_lt' (by omega)]
        have hb : atBoundary t = false := by
          have hne : t.cycle ≠ 0 := fun h0 => by simp [h0] at hval
          simp [atBoundary, hne]
        rw [goOn_of_running ht hb]
        exact ih (by omega)

/-- A step from the beginning of an instruction cycle: the cycle, and then on if it did not end there (R96, R97). -/
theorem step_of_ready {s : State} (h : s.ready) : step s = andThen (instructionCycle s) (goOn 8) := by
  rw [step_eq, ← clockRun_eight h]
  exact runToBoundary_of_cycle (m := 7) (by rw [h.1]; decide) 8

theorem runToBoundary_eight {s : State} (h : s.ready) : runToBoundary 8 s = instructionCycle s := by
  have hrun : runToBoundary 8 s = andThen (clockRun 8 s) (goOn 0) :=
    runToBoundary_of_cycle (m := 7) (by rw [h.1]; decide) 0
  rw [hrun, clockRun_eight h]
  cases instructionCycle s with
  | next t => exact goOn_zero t
  | fault r => rfl
  | refused r => rfl

/-! ### Sixteen clock steps suffice -/

/-- The most clock steps left to the next boundary: a second instruction cycle follows where the latch is clear before a
decode (the word may be wide) or set after one (R89). -/
def clockStepsToBoundary (c : Fin 8) (pending : Bool) : Nat :=
  if pending = decide (6 ≤ c.val) then 16 - c.val else 8 - c.val

/-- Each clock step of a running core reaches a boundary or comes nearer to one (R86, R89). -/
theorem clockStep_nears_boundary {s t : State} (hh : s.halted = false) (h : clockStep s = .next t) :
    atBoundary t = true ∨
      clockStepsToBoundary t.cycle t.wide.pending < clockStepsToBoundary s.cycle s.wide.pending := by
  have hcount : ∀ (c : Fin 8) (p q : Bool), (c ≠ 5 → q = p) → (c = 5 → p = true → q = false) →
      (c + 1 = 0 ∧ q = false) ∨ clockStepsToBoundary (c + 1) q < clockStepsToBoundary c p := by decide
  obtain ⟨hc, -⟩ := clockStep_position hh h
  rw [atBoundary_iff, hc]
  exact hcount s.cycle s.wide.pending t.wide.pending (fun h5 => by rw [clockStep_wide h5 h])
    fun h5 hp => clockStep_clears_wide hh h5 hp h

theorem clockStepsToBoundary_bounds (c : Fin 8) (p : Bool) :
    0 < clockStepsToBoundary c p ∧ clockStepsToBoundary c p ≤ 16 := by
  revert c p; decide

/-- With enough clock steps the run to the end of an instruction gets there, or to the end of the run (R89, R97). -/
theorem runToBoundary_stops {n : Nat} {s t : State} (hn : clockStepsToBoundary s.cycle s.wide.pending ≤ n)
    (h : runToBoundary n s = .next t) : t.halted = true ∨ atBoundary t = true := by
  induction n generalizing s with
  | zero => exact absurd hn (Nat.not_le_of_gt (clockStepsToBoundary_bounds _ _).1)
  | succ n ih =>
    rw [runToBoundary_eq_goOn] at h
    obtain ⟨u, hu, ht⟩ := andThen_eq_next h
    by_cases hstop : u.halted = true ∨ atBoundary u = true
    · rw [goOn_of_stop hstop] at ht
      cases ht
      exact hstop
    · obtain ⟨hhu, hbu⟩ := not_or.mp hstop
      rw [Bool.not_eq_true] at hhu
      have hnear := (clockStep_nears_boundary (running_of_clockStep hhu hu) hu).resolve_left hbu
      rw [goOn_of_running hhu (by simpa using hbu)] at ht
      exact ih (by omega) ht

/-- Settles O43: every clock step comes nearer to a boundary, and no state is more than sixteen away. -/
theorem stepEndsBetweenInstructionsOrHalted : Obligations.StepEndsBetweenInstructionsOrHalted := by
  intro s t _ h
  rw [step_eq] at h
  exact (runToBoundary_stops (clockStepsToBoundary_bounds _ _).2 h).imp_right (atBoundary_iff t).mp

/-! ### The instruction a step runs -/

/-- What the two words decode to, by the length of the instruction (R64). -/
theorem decodeSingle_of_decode {w1 w2 : Byte} {i : Instr} {rest : List Byte} (h : decode [w1, w2] = .ok (i, rest))
    (hl : i.words = 1) : decodeSingle (hiNibble w1) (loNibble w1) = some i := by
  rcases decode_cases h with ⟨w, hw, hi⟩ | ⟨u1, u2, -, -, hi⟩
  · obtain ⟨rfl, -⟩ := List.cons.inj hw
    exact hi
  · exact absurd ((decodeWide_words hi).symm.trans hl) (by decide)

theorem decodeWide_of_decode {w1 w2 : Byte} {i : Instr} {rest : List Byte} (h : decode [w1, w2] = .ok (i, rest))
    (hl : i.words = 2) :
    isWideOpr (hiNibble w1) = true ∧
      decodeWide (hiNibble w1) (loNibble w1) (hiNibble w2) (loNibble w2) = some i := by
  rcases decode_cases h with ⟨w, -, hi⟩ | ⟨u1, u2, hw, hwide, hi⟩
  · exact absurd ((decodeSingle_words hi).symm.trans hl) (by decide)
  · obtain ⟨rfl, htail⟩ := List.cons.inj hw
    obtain ⟨rfl, -⟩ := List.cons.inj htail
    exact ⟨hwide, hi⟩

/-- An instruction cycle that leaves the latch clear ends the step (R97, R98). -/
theorem goOn_finished {d : State} (hp : d.wide.pending = false) (n : Nat) :
    goOn n (finished d) = .next (finished d) := by
  refine goOn_of_stop ((finished_halted_or_cycle d).imp_right fun hc => ?_) n
  rw [atBoundary_iff, finished_wide]
  exact ⟨hc, hp⟩

/-- A step that begins with a single word is fetch, meaning, finish (R97). -/
theorem step_single {s : State} {i : Instr} (h : s.ready) (hp : s.wide.pending = false)
    (hi : decodeSingle (hiNibble (romByte s s.pc)) (loNibble (romByte s s.pc)) = some i) :
    step s = andThen (exec i (fetched s)) fun t => .next (finished t) := by
  obtain ⟨d, hd, -⟩ := exec_next i (fetched s)
  have hpd : d.wide.pending = false := by rw [exec_frame hd]; exact hp
  rw [step_of_ready h, instructionCycle, decodeStep_single (s := fetched s) hp hi, hd]
  exact goOn_finished hpd 8

/-- A step that begins with a wide word whose second word is inside the image goes on with the second cycle (R89, R97). -/
theorem step_wide {s : State} (h : s.ready) (hp : s.wide.pending = false)
    (hw : isWideOpr (hiNibble (romByte s s.pc)) = true) (hin : (s.pc + 1#12).toNat < s.romSizeBytes.val) :
    step s = instructionCycle (firstWordDone s) := by
  have hr := ready_firstWordDone h hin
  obtain ⟨hh, -, -⟩ := runsInside_of_ready hr
  rw [step_of_ready h, instructionCycle_first hp hw, andThen_next,
    goOn_of_running hh (by simp [atBoundary, firstWordDone_wide]), runToBoundary_eight hr]

/-- One whose second word is beyond the image ends there (R142). -/
theorem step_cut_off {s : State} (h : s.ready) (hp : s.wide.pending = false)
    (hw : isWideOpr (hiNibble (romByte s s.pc)) = true) (hend : s.romSizeBytes.val ≤ (s.pc + 1#12).toNat) :
    step s = .next (firstWordDone s) := by
  rw [step_of_ready h, instructionCycle_first hp hw, andThen_next, goOn_of_stop (.inl (firstWordDone_of_past h hend))]

/-- The second cycle of a wide instruction is fetch, meaning, the latch cleared, finish (R85, R86, R90). -/
theorem instructionCycle_second {s : State} {i : Instr} (h : s.ready) (hin : (s.pc + 1#12).toNat < s.romSizeBytes.val)
    (hi : decodeWide (hiNibble (romByte s s.pc)) (loNibble (romByte s s.pc)) (hiNibble (romByte s (s.pc + 1#12)))
      (loNibble (romByte s (s.pc + 1#12))) = some i) :
    instructionCycle (firstWordDone s) =
      andThen (exec i (fetched (firstWordDone s))) fun t => .next (finished (clearWide t)) := by
  have hpc : (firstWordDone s).pc = s.pc + 1#12 := by rw [firstWordDone_of_inside h hin]; rfl
  have hrom : ∀ a, romByte (firstWordDone s) a = romByte s a := romByte_congr (by simp [firstWordDone])
  have hp : (fetched (firstWordDone s)).wide.pending = true := by simp [firstWordDone_wide]
  rw [instructionCycle, decodeStep_pending hp, fetched_wide, firstWordDone_wide, fetched_ir, hpc, hrom,
    completeWide_some hi, andThen_assoc]
  rfl

/-- A step that begins with a wide instruction inside the image runs it (R97). -/
theorem step_of_decode_wide {s : State} {i : Instr} {rest : List Byte} (h : s.ready) (hp : s.wide.pending = false)
    (hd : decode [romByte s s.pc, romByte s (s.pc + 1#12)] = .ok (i, rest)) (hl : i.words = 2)
    (hin : (s.pc + 1#12).toNat < s.romSizeBytes.val) :
    step s = andThen (exec i (fetched (firstWordDone s))) fun t => .next (finished (clearWide t)) := by
  obtain ⟨hw, hi⟩ := decodeWide_of_decode hd hl
  rw [step_wide h hp hw hin, instructionCycle_second h hin hi]

/-- Settles O40: one instruction cycle for a single word, two for a wide one, and the end of the run between the two. -/
theorem stepRunsTheDecodedInstruction : Obligations.StepRunsTheDecodedInstruction := by
  intro s i rest h hp hd
  refine ⟨fun hl => step_single h hp (decodeSingle_of_decode hd hl), fun hl hin => step_of_decode_wide h hp hd hl hin,
    fun hl hend => ?_⟩
  obtain ⟨hw, -⟩ := decodeWide_of_decode hd hl
  exact ⟨step_cut_off h hp hw hend, firstWordDone_of_past h hend, by rw [firstWordDone_wide]⟩

/-! ### JUN -/

/-- Settles O48: the completing decode commits the target less one; the post-increment then lands on it, unless the committed
value ends the run. -/
theorem junLandsOrEndsTheRun : Obligations.JunLandsOrEndsTheRun := by
  intro s a12 h hp hb1 hb2 hin
  have hd : decode [romByte s s.pc, romByte s (s.pc + 1#12)] = .ok (.jun a12, []) := by
    rw [hb1, hb2]
    exact decode_encode (.jun a12) []
  obtain ⟨hh, -, -⟩ := runsInside_of_ready (ready_firstWordDone h hin)
  have hsize : (firstWordDone s).romSizeBytes = s.romSizeBytes := by simp [firstWordDone]
  rw [step_of_decode_wide h hp hd rfl hin, exec_jun, andThen_next]
  refine ⟨_, rfl, by simp [firstWordDone], by simp [firstWordDone], by simp [firstWordDone], fun hlands => ?_,
    fun hends => ?_⟩
  · rw [finished_of_inside (pastEnd_eq_false (by simpa [hsize] using hlands))]
    simp [hh, hsize, pastEnd]
  · rw [finished_of_past (pastEnd_eq_true (by simpa [hsize] using hends))]
    exact ⟨rfl, rfl, rfl, rfl⟩

end Sys2Proof.Machine
end

section
/-! SUPPORT. The run of an image (spec/40_instruction_cycle.md R99): the words its decodes see (R90, R36 item 7), and the
source's two examples. -/

namespace Sys2Proof.Machine

/-! ### The words a decode sees -/

/-- Program memory at the start of a run is the image, 0x00 beyond it (R99, R136, D8). -/
theorem romByte_startOf (image : List Byte) (a : Addr) : romByte (startOf image) a = image.getD a.toNat 0x00#8 := by
  have hload := Memory.get_load (m := []) rfl 0 image a.isLt
  have hread : romByte (startOf image) a = Memory.get (Memory.load [] 0 image) a.toNat := rfl
  rw [hread, hload]
  split
  · rfl
  · rename_i hout
    rw [List.getD_eq_default _ _ (by omega)]
    rfl

/-- The same at any time of the run: no clock step writes program memory (R53). -/
theorem romByte_of_clockRun {image : List Byte} {n : Nat} {s : State} (h : clockRun n (startOf image) = .next s)
    (a : Addr) : romByte s a = image.getD a.toNat 0x00#8 := by
  have hrom : s.rom = (startOf image).rom := by
    refine clockRun_keeps (P := fun u => u.rom = (startOf image).rom) ?_ n rfl h
    intro u v hu huv
    obtain ⟨-, -, -, hv, -⟩ := clockStep_keeps huv
    exact hv.trans hu
  rw [romByte_congr hrom, romByte_startOf]

/-- Settles O55: the invariant holds throughout the run, and says what `ir` and both latches hold at a decode. -/
theorem decodeSeesTheWordsAtPc : Obligations.DecodeSeesTheWordsAtPc := by
  intro image n s h hc
  have hinv : s.Inv := clockRun_keeps (fun _ _ => inv_clockStep) n (inv_startOf image) h
  obtain ⟨hi, -⟩ := (State.inv_iff s).mp hinv
  have hlatch : s.addrLatch = s.pc := hi.latchHoldsPc (.inr (.inr hc))
  refine ⟨?_, hlatch, ?_, fun hp => ?_⟩
  · rw [hi.irFills.2 hc, romByte_of_clockRun h]
  · rw [finAddress, hlatch]
  · rw [(hi.pendingWord hp).1 (by rw [hc]; decide), romByte_of_clockRun h]

/-! ### The end of a run -/

/-- A core that runs after a number of clock steps has run all along (R88). -/
theorem running_of_clockRun {k n : Nat} {s t u : State} (hk : k ≤ n) (ht : clockRun n s = .next t)
    (hh : t.halted = false) (hu : clockRun k s = .next u) : u.halted = false := by
  cases hhu : u.halted with
  | false => rfl
  | true =>
    obtain ⟨j, rfl⟩ := Nat.exists_eq_add_of_le hk
    rw [clockRun_add, hu, andThen_next, clockRun_of_halted hhu] at ht
    cases ht
    exact absurd (hhu.symm.trans hh) (by decide)

/-- A run ends with the clock step that first halts it (R99). -/
theorem runEndsAfter_succ {image : List Byte} {n : Nat} {s t : State} (hs : clockRun n (startOf image) = .next s)
    (hh : s.halted = false) (hst : clockStep s = .next t) (ht : t.halted = true) : RunEndsAfter image (n + 1) t := by
  refine ⟨?_, ht, fun k hk u hu => running_of_clockRun (Nat.le_of_lt_succ hk) hs hh hu⟩
  rw [clockRun_add, hs, andThen_next, clockRun_of_next hst, clockRun_zero]

/-- Settles O60: each image run to its last clock step, and that clock step. -/
theorem sourceExamplesRunAsListed : Obligations.SourceExamplesRunAsListed := by
  constructor
  · exact ⟨_, runEndsAfter_succ (n := 15) rfl (by decide) rfl (by decide), by decide, by decide⟩
  · exact ⟨_, runEndsAfter_succ (n := 13) rfl (by decide) rfl (by decide), by decide, by decide⟩

end Sys2Proof.Machine
end

section
/-! The statement on NOP and the unimplemented opcodes (spec/41_nop_and_unimplemented.md R100 to R108). -/

namespace Sys2Proof.Machine

/-- Settles O11: the equation of each of the nine meanings, R100 to R108 in order. -/
theorem nopAndUnimplementedChangeNothing : Obligations.NopAndUnimplementedChangeNothing :=
  fun x s => ⟨exec_nop x s, exec_rsv8 x s, exec_rsv9 x s, exec_rsva x s, exec_rsvb x s, exec_rsvc x s, exec_rsvd x s,
    exec_rsve x s, exec_rsvf x s⟩

end Sys2Proof.Machine
end

section
/-! The statements on the register-pair loads FIM and FIN (spec/42_register_load.md R109, R110). -/

namespace Sys2Proof.Machine

/-! ### FIN -/

/-- The address of FIN is the latched bank and pair 0 (R110, D5). -/
theorem addrTop_finAddress (s : State) : addrTop (finAddress s) = addrTop s.addrLatch :=
  addrTop_joinAddr _ _

theorem addrLow_finAddress (s : State) : addrLow (finAddress s) = joinNibbles (getReg s 0) (getReg s 1) :=
  addrLow_joinAddr _ _

/-- With the parity counter at 0 the byte at the address goes into the pair, high nibble first (R45, R110). -/
theorem exec_fin_of_phase_zero (p : PairIx) {s : State} (h0 : s.nibblePhase = 0#1) :
    exec (.fin p) s =
      .next (setPair { s with addrLatch := finAddress s, bus := loNibble (romByte s (finAddress s)) } p
        (romByte s (finAddress s))) := by
  rw [exec_fin, (memoryReadGivesByteAtAddress s (finAddress s)).1 h0, andThen_next]

/-- With the parity counter at 1 its nibbles arrive the other way round (R45). -/
theorem exec_fin_of_phase_one (p : PairIx) {s : State} (h1 : s.nibblePhase = 1#1) :
    exec (.fin p) s =
      .next (setPair { s with addrLatch := finAddress s, bus := hiNibble (romByte s (finAddress s)) } p
        (joinNibbles (loNibble (romByte s (finAddress s))) (hiNibble (romByte s (finAddress s))))) := by
  rw [exec_fin, (memoryReadGivesByteAtAddress s (finAddress s)).2 h1, andThen_next]

/-- Settles O13: the address and the frame do not depend on the byte read; the byte and the nibble on the bus are those of the
memory read in the phase at hand. -/
theorem finLoadsIndirectIntoPair : Obligations.FinLoadsIndirectIntoPair := by
  intro p s
  obtain ⟨b, n, h⟩ := exec_fin_next p s
  refine ⟨_, h, fun h0 => ?_, fun h1 => ?_, addrTop_finAddress s, addrLow_finAddress s, rfl,
    fun q he ho => getReg_setPair_other _ b he ho, romByte_congr rfl, rfl⟩
  · rw [Host.Outcome.next.inj (h.symm.trans (exec_fin_of_phase_zero p h0))]
    exact ⟨getPair_setPair_same _ p _, rfl⟩
  · rw [Host.Outcome.next.inj (h.symm.trans (exec_fin_of_phase_one p h1))]
    exact ⟨by simp, by simp, rfl⟩

/-! ### FIM -/

/-- Settles O12: FIM is a pair write, so its clauses are the reads after one. -/
theorem fimLoadsImmediateIntoPair : Obligations.FimLoadsImmediateIntoPair := by
  intro p x d8 s
  exact ⟨setPair s p d8, exec_fim p x d8 s, getReg_setPair_even s p d8, getReg_setPair_odd s p d8,
    fun q he ho => getReg_setPair_other s d8 he ho, romByte_setPair s p d8, rfl⟩

end Sys2Proof.Machine
end

section
/-! The statements on INC and ISZ (spec/43_register_increment.md R111, R112). -/

namespace Sys2Proof.Machine

/-! ### The increment -/

/-- The result of INC and ISZ is the register plus one modulo 16 (R111). -/
theorem incremented_toNat (s : State) (r : RegIx) : (incremented s r).toNat = ((getReg s r).toNat + 1) % 16 :=
  BitVec.toNat_add (getReg s r) 1#4

/-- The increment wraps to zero from 0xF, and from no other value (R111, R112). -/
theorem incremented_eq_zero_iff (s : State) (r : RegIx) : incremented s r = 0#4 ↔ getReg s r = 0xF#4 :=
  add_eq_zero_iff_eq_neg

/-- Settles O14: INC is a register write, so its clauses are the reads after one. -/
theorem incAddsOneAndWraps : Obligations.IncAddsOneAndWraps := by
  intro opa s
  refine ⟨regOfOpa opa, _, regOfOpa_val opa, rfl, exec_inc (regOfOpa opa) s, ?_, fun hF => ?_,
    fun q hq => getReg_setReg_other s _ hq, romByte_setReg s _ _, rfl⟩
  · rw [getReg_setReg_same, incremented_toNat]
  · rw [getReg_setReg_same, incremented_eq_zero_iff]
    exact hF

/-! ### The jump of ISZ -/

/-- The post-increment lands a committed jump on its target (R93, D3). -/
theorem jumpCommit_pc_add_one (s : State) (a : Addr) : (jumpCommit s a).pc + 1#12 = a :=
  BitVec.sub_add_cancel a 1#12

/-- At 0xF, ISZ clears its register and does not jump (R112). -/
theorem exec_isz_of_wrap {s : State} {r : RegIx} (a8 : Byte) (hF : getReg s r = 0xF#4) :
    exec (.isz r a8) s = .next (setReg s r 0#4) := by
  rw [exec_isz, if_pos ((incremented_eq_zero_iff s r).mpr hF)]

/-- At any other value it increments and jumps in the page (R112, C5). -/
theorem exec_isz_of_jump {s : State} {r : RegIx} (a8 : Byte) (hF : getReg s r ≠ 0xF#4) :
    exec (.isz r a8) s = .next (jumpCommit (setReg s r (incremented s r)) (inPageTarget s a8)) := by
  rw [exec_isz, if_neg (mt (incremented_eq_zero_iff s r).mp hF)]

/-- Settles O15: a register write, followed by a jump exactly when the register did not hold 0xF. -/
theorem iszIncrementsAndJumpsIfNotZero : Obligations.IszIncrementsAndJumpsIfNotZero := by
  intro r a8 s
  by_cases hF : getReg s r = 0xF#4
  · refine ⟨_, exec_isz_of_wrap a8 hF, ?_, fun _ => ⟨getReg_setReg_same s r _, rfl⟩, fun hn => absurd hF hn,
      fun q hq => getReg_setReg_other s _ hq, romByte_setReg s r _, rfl⟩
    rw [getReg_setReg_same, hF]
    rfl
  · refine ⟨_, exec_isz_of_jump a8 hF, ?_, fun h => absurd h hF, fun _ => jumpCommit_pc_add_one _ _,
      fun q hq => getReg_setReg_other s _ hq, romByte_setReg s r (incremented s r), rfl⟩
    rw [getReg_jumpCommit, getReg_setReg_same, incremented_toNat]

end Sys2Proof.Machine
end

section
/-! The statements on control transfer: JCN, JIN, JUN and JMS (spec/44_control_transfer.md R113 to R117). -/

namespace Sys2Proof.Machine

/-! ### JCN -/

/-- The condition as its two tests, each enabled by its bit, inverted by bit 3: the test pin is never set, so bit 0 does not
count (R113, D6, C4). -/
theorem jcnTaken_eq (s : State) (c : Nibble) :
    jcnTaken s c = (c.getLsbD 3 ^^ (c.getLsbD 2 && s.acc == 0#4 || c.getLsbD 1 && s.cy)) := by
  have hbase : jcnBase s c = (c.getLsbD 2 && s.acc == 0#4 || c.getLsbD 1 && s.cy) := by
    simp only [jcnBase, Config.testSet, Bool.and_false, Bool.or_false]
  rw [← hbase, jcnTaken]
  cases c.getLsbD 3 with
  | true => simp
  | false => simp

/-- Settles O16: each row is the condition at the bits of its two values, with the accumulator zero and with it not zero. -/
theorem jcnConditionTable : Obligations.JcnConditionTable := by
  intro s
  by_cases hz : s.acc = 0#4
  · simp [jcnTaken_eq, hz]
  · simp [jcnTaken_eq, hz]

/-- Settles O17: taken, JCN is a committed jump; not taken, it answers the state it was given. -/
theorem jcnJumpsWhenConditionHolds : Obligations.JcnJumpsWhenConditionHolds := by
  intro cond a8 s
  rw [exec_jcn]
  split
  case isTrue ht =>
    exact ⟨_, rfl, fun _ => jumpCommit_pc_add_one s _, fun hf => absurd ht (Bool.eq_false_iff.mp hf),
      romByte_jumpCommit s _, rfl⟩
  case isFalse hf => exact ⟨s, rfl, fun ht => absurd ht hf, fun _ => rfl, fun _ => rfl, rfl⟩

/-! ### JIN -/

/-- Settles O18: JIN writes `pc` only, and the fields of its target are the bank and the pair. -/
theorem jinPutsPairIntoPc : Obligations.JinPutsPairIntoPc := by
  intro p s
  exact ⟨_, exec_jin p s, addrTop_joinAddr _ _, addrLow_joinAddr _ _, romByte_setPc s _, rfl⟩

/-! ### JUN and JMS -/

/-- What a jump commits: the target less one, modulo 4096 (R93, D3). -/
theorem jumpCommit_pc_toNat (s : State) (a : Addr) : (jumpCommit s a).pc.toNat = (a.toNat + 4095) % 4096 := by
  rw [jumpCommit_pc, BitVec.toNat_sub, Nat.add_comm]
  rfl

/-- Settles O19: JUN is a committed jump. -/
theorem junCommitsTarget : Obligations.JunCommitsTarget := by
  intro a12 s
  exact ⟨_, exec_jun a12 s, jumpCommit_pc_toNat s a12, romByte_jumpCommit s a12, rfl⟩

/-- The stack index advances modulo 3 (R94, D7). -/
theorem nextSp_val (sp : Fin 3) : (nextSp sp).val = (sp.val + 1) % 3 := by
  revert sp; decide

/-- Settles O20: JMS is a push of `pc` followed by a committed jump, which keeps the stack. -/
theorem jmsPushesPcAndJumps : Obligations.JmsPushesPcAndJumps := by
  intro a12 s
  exact ⟨_, exec_jms a12 s, stackPush_get_same s s.pc, fun k hk => stackPush_get_other s s.pc hk, nextSp_val s.sp,
    jumpCommit_pc_add_one (stackPush s s.pc) a12, romByte_stackPush s s.pc, rfl⟩

end Sys2Proof.Machine
end

section
/-! SUPPORT. No fault and no refusal (spec/60_exceptions.md R118 to R120): a clock step and a step answer wherever the stage
agrees with the cycle (R36 item 1), and keep it so. -/

namespace Sys2Proof.Machine

/-- A clock step keeps the stage in agreement with the cycle: a halted core stays as it is, a running one moves on with its
stage (R36 item 1, R88). -/
theorem clockStep_keeps_stageAgrees {s t : State} (ha : s.stageAgrees) (h : clockStep s = .next t) : t.stageAgrees := by
  cases hh : s.halted with
  | true =>
    cases (clockStep_of_halted hh).symm.trans h
    exact ha
  | false => exact (clockStep_position hh h).2

/-- From a stage that agrees with the cycle the run to the end of an instruction answers, whatever its bound (R97). -/
theorem runToBoundary_next_of_stageAgrees (n : Nat) {s : State} (ha : s.stageAgrees) :
    ∃ t, runToBoundary n s = .next t := by
  induction n generalizing s with
  | zero => exact ⟨s, rfl⟩
  | succ n ih =>
    obtain ⟨u, hu⟩ := clockStep_next ha
    rw [runToBoundary_eq_goOn, hu, andThen_next, goOn]
    split
    · exact ⟨u, rfl⟩
    · exact ih (clockStep_keeps_stageAgrees ha hu)

/-- Settles O42: a clock step answers and keeps the agreement, so every clock step of a step has it too. -/
theorem stepNeverFaults : Obligations.StepNeverFaults := by
  intro s ha
  obtain ⟨u, hu⟩ := clockStep_next ha
  obtain ⟨t, ht⟩ := runToBoundary_next_of_stageAgrees longestInstruction ha
  exact ⟨⟨u, hu, clockStep_keeps_stageAgrees ha hu⟩,
    t, ht, runToBoundary_keeps (fun _ _ => clockStep_keeps_stageAgrees) longestInstruction ha ht⟩

end Sys2Proof.Machine
end

section
/-! SUPPORT. Loading and reset (spec/70_reset_and_hazards.md R136, R138; spec/40_instruction_cycle.md R99): the loader's
contract, the one clock step of an empty image, and the bytes `withFetchWord` places. -/

namespace Sys2Proof.Machine

/-! ### Loading -/

/-- Program memory after loading is read the same whatever was loaded over, so it is that of the start of a run (R136). -/
theorem romByte_loadImage (s : State) (image : List Byte) (a : Addr) :
    romByte (loadImage s image) a = image.getD a.toNat 0x00#8 :=
  romByte_startOf image a

/-- Settles O58: loading writes program memory and its size, resetting everything else. -/
theorem loaderContract : Obligations.LoaderContract :=
  fun s image => ⟨romByte_loadImage s image, rfl, rfl, rfl⟩

/-! ### The empty image -/

/-- The first address transfer after RESET sends a zero into a latch of zeros, so only the position moves (R35, R78). -/
theorem stepA_assertReset (s : State) : stepA (assertReset s) = { assertReset s with cycle := 1 } := by
  apply State.ext
  case bus | addrLatch => simp [stepA, addrNibble]
  all_goals rfl

/-- Settles O59: the comparator halts the core after its first clock step, and a step stops where the run has ended. -/
theorem emptyImageStillTakesOneClockStep : Obligations.EmptyImageStillTakesOneClockStep := by
  intro s hempty
  have hclock : clockStep (assertReset s) = .next { assertReset s with cycle := 1, halted := true } := by
    have hend : (assertReset s).romSizeBytes.val ≤ (assertReset s).pc.toNat := by simp [hempty]
    rw [clockStep_fetchAddr rfl rfl rfl, stepA_assertReset,
      runEndCheck_of_running (s := { assertReset s with cycle := 1 }) rfl, decide_eq_true hend]
  refine ⟨hclock, ?_⟩
  rw [step_eq, runToBoundary_eq_goOn, hclock, andThen_next, goOn_of_stop (.inl rfl)]

/-! ### A placed table word (log 7) -/

theorem addr_ne_add_one (a : Addr) : a ≠ a + 1#12 := by
  bv_omega

/-- The covering size holds the byte at `pc` and the byte after it, modulo 4096. -/
theorem lt_sizeCovering (s : State) :
    s.pc.toNat < (sizeCovering s).val ∧ (s.pc + 1#12).toNat < (sizeCovering s).val := by
  have hpc := s.pc.isLt
  have hnext : (s.pc + 1#12).toNat = (s.pc.toNat + 1) % 4096 := BitVec.toNat_add s.pc 1#12
  simp only [sizeCovering]
  omega

/-- The write of the second byte leaves the first in place: the two addresses differ, even across the top of memory. -/
theorem romByte_placeAtPc_first {s : State} (hwf : Memory.wf s.rom = true) (b1 b2 : Byte) :
    romByte (placeAtPc s b1 b2) s.pc = b1 := by
  have hne : s.pc.toNat ≠ (s.pc + 1#12).toNat := fun e => addr_ne_add_one s.pc (BitVec.eq_of_toNat_eq e)
  exact (Memory.get_set_other _ b2 hne).trans (Memory.get_set_same hwf _ b1)

theorem romByte_placeAtPc_second {s : State} (hwf : Memory.wf s.rom = true) (b1 b2 : Byte) :
    romByte (placeAtPc s b1 b2) (s.pc + 1#12) = b2 :=
  Memory.get_set_same (Memory.wf_set hwf b1 s.pc.isLt) _ b2

/-- A table word is an instruction exactly if its two words decode to it (log 23). -/
theorem decode_of_decodeTableWord {nbits w : Nat} {i : Instr} (h : decodeTableWord nbits w = some i) :
    ∃ rest, decode [tableFirst nbits w, tableSecond nbits w] = .ok (i, rest) := by
  unfold decodeTableWord at h
  split at h
  · rename_i j rest hd
    cases h
    exact ⟨rest, hd⟩
  · simp at h

/-- Settles O41: the two bytes placed are read back at `pc` and after it, and the covering size holds both. -/
theorem placedWordIsWhatTheStepFetches : Obligations.PlacedWordIsWhatTheStepFetches := by
  intro s nbits w i hwf hi
  obtain ⟨hfirst, hsecond⟩ := lt_sizeCovering s
  refine ⟨⟨rfl, rfl, rfl, rfl, hfirst⟩, rfl, rfl, rfl, hsecond, ?_⟩
  rw [State.withFetchWord, romByte_placeAtPc_first hwf, romByte_placeAtPc_second hwf]
  exact decode_of_decodeTableWord hi

end Sys2Proof.Machine
end

section
/-! SUPPORT. Timing and the hazards of jumps (spec/70_reset_and_hazards.md R139, R140, R152): how many clock steps an
instruction takes, and where the instruction cycle of a jump ends. -/

namespace Sys2Proof.Machine

/-! ### Clock steps of an instruction -/

/-- A core that still runs has moved on by one cycle index at each clock step (R25, R88). -/
theorem cycle_of_clockRun {k : Nat} {s t : State} (h : clockRun k s = .next t) (hh : t.halted = false) :
    t.cycle.val = (s.cycle.val + k) % 8 := by
  induction k generalizing s with
  | zero =>
    cases h
    exact (Nat.mod_eq_of_lt t.cycle.isLt).symm
  | succ k ih =>
    rw [clockRun_succ] at h
    obtain ⟨u, hu, ht⟩ := andThen_eq_next h
    have hhu : u.halted = false := running_of_clockRun (Nat.zero_le k) ht hh (clockRun_zero u)
    obtain ⟨hc, -⟩ := clockStep_position (running_of_clockStep hhu hu) hu
    have hval : u.cycle.val = (s.cycle.val + 1) % 8 := by rw [hc, Fin.val_add]; rfl
    rw [ih ht, hval]
    omega

/-- From the beginning of an instruction cycle a core that still runs is at the beginning of one after every eighth clock
step only (R25). -/
theorem eight_dvd_of_clockRun {k : Nat} {s t : State} (hs : s.ready) (h : clockRun k s = .next t) (hh : t.halted = false)
    (hc : t.cycle = 0) : 8 ∣ k := by
  have hcycle := cycle_of_clockRun h hh
  rw [hs.1, hc, Fin.val_zero, Nat.zero_add] at hcycle
  exact Nat.dvd_of_mod_eq_zero hcycle.symm

/-- A single-word instruction is one instruction cycle (R152). -/
theorem step_eq_clockRun_eight {s : State} {i : Instr} (h : s.ready) (hp : s.wide.pending = false)
    (hi : decodeSingle (hiNibble (romByte s s.pc)) (loNibble (romByte s s.pc)) = some i) : step s = clockRun 8 s := by
  rw [step_single h hp hi, clockRun_eight h, instructionCycle, decodeStep_single (s := fetched s) hp hi]

/-- The first eight clock steps of a wide instruction are the cycle of its first word (R89). -/
theorem clockRun_eight_of_wide {s : State} (h : s.ready) (hp : s.wide.pending = false)
    (hw : isWideOpr (hiNibble (romByte s s.pc)) = true) : clockRun 8 s = .next (firstWordDone s) :=
  (clockRun_eight h).trans (instructionCycle_first hp hw)

/-- A wide instruction is two instruction cycles; a run that ends after the first stays there (R152, R142). -/
theorem step_eq_clockRun_sixteen {s : State} (h : s.ready) (hp : s.wide.pending = false)
    (hw : isWideOpr (hiNibble (romByte s s.pc)) = true) : step s = clockRun 16 s := by
  rw [clockRun_add 8 8, clockRun_eight_of_wide h hp hw, andThen_next]
  by_cases hin : (s.pc + 1#12).toNat < s.romSizeBytes.val
  · rw [step_wide h hp hw hin, clockRun_eight (ready_firstWordDone h hin)]
  · have hend := Nat.le_of_not_lt hin
    rw [step_cut_off h hp hw hend, clockRun_of_halted (firstWordDone_of_past h hend)]

/-- Settles O44: one instruction cycle for each word; the only end of a cycle on the way is the first word's of a wide
instruction, where the latch is set. -/
theorem singleWordTakesEightClockStepsWideSixteen : Obligations.SingleWordTakesEightClockStepsWideSixteen := by
  intro s i rest h hp hd
  rcases decode_cases hd with ⟨w, hcons, hi⟩ | ⟨w1, w2, hcons, hw, hi⟩ <;> obtain ⟨rfl, -⟩ := List.cons.inj hcons
  · rw [decodeSingle_words hi]
    refine ⟨step_eq_clockRun_eight h hp hi, fun k t hpos hk ht hh => ?_⟩
    rintro ⟨hc, -⟩
    exact Nat.not_dvd_of_pos_of_lt hpos hk (eight_dvd_of_clockRun h ht hh hc)
  · rw [decodeWide_words hi]
    refine ⟨step_eq_clockRun_sixteen h hp hw, fun k t hpos hk ht hh => ?_⟩
    rintro ⟨hc, hclear⟩
    obtain rfl : k = 8 := by
      have hdvd := eight_dvd_of_clockRun h ht hh hc
      omega
    cases (clockRun_eight_of_wide h hp hw).symm.trans ht
    simp [firstWordDone_wide] at hclear

/-! ### Where the instruction cycle of a jump ends -/

/-- A decode that leaves `pc` inside the image: the post-increment, and the comparator behind it (R96 item 3, R97). -/
theorem finished_lands {d : State} (hh : d.halted = false) (hin : d.pc.toNat < d.romSizeBytes.val) :
    (finished d).pc = d.pc + 1#12 ∧ (finished d).cycle = 0 ∧
      ((finished d).halted = true ↔ d.romSizeBytes.val ≤ (d.pc + 1#12).toNat) := by
  rw [finished_of_inside (pastEnd_eq_false hin), runEndCheck_of_running (s := endOfInstructionCycle d) hh]
  exact ⟨rfl, rfl, decide_eq_true_iff⟩

/-- A decode that leaves `pc` beyond the image ends the run in its own clock step (R96 item 2, R98). -/
theorem finished_ends {d : State} (hend : d.romSizeBytes.val ≤ d.pc.toNat) :
    (finished d).pc = d.pc ∧ (finished d).cycle = 6 ∧ (finished d).stage = d.stage ∧ (finished d).halted = true := by
  rw [finished_of_past (pastEnd_eq_true hend)]
  exact ⟨rfl, rfl, rfl, rfl⟩

/-- Settles O47: JIN leaves its target in `pc` with no compensation, so the post-increment goes one byte beyond it. -/
theorem jinGoesOnOneByteAfterThePair : Obligations.JinGoesOnOneByteAfterThePair := by
  intro s p h hp hb
  obtain ⟨hh, -, -⟩ := runsInside_of_ready h
  have hi : decodeSingle (hiNibble (romByte s s.pc)) (loNibble (romByte s s.pc)) = some (.jin p) := by
    simp [hb, decodeSingle]
  rw [step_single h hp hi, exec_jin, andThen_next]
  refine ⟨_, rfl, fun hin => ?_, fun hend => ?_⟩
  · obtain ⟨hpc, hc, hhalt⟩ := finished_lands (d := setPc (fetched s) (jinTarget s p)) hh hin
    exact ⟨hpc, hc, hhalt.trans (by rw [← hpc]; rfl)⟩
  · obtain ⟨hpc, hc, -, hhalt⟩ := finished_ends (d := setPc (fetched s) (jinTarget s p)) hend
    exact ⟨hpc, hc, hhalt⟩

/-! ### Jumps to 0x000 -/

/-- The decode of `i` in `s` jumps to 0x000: JUN and JMS always, JCN and ISZ if taken and `pc` is in bank 0 and not at its
last offset, so that the page rule stays in bank 0 (R92, R140). -/
def JumpsToZero (s : State) (i : Instr) : Prop :=
  i = .jun 0x000#12 ∨ i = .jms 0x000#12 ∨
    (s.pc.toNat < 255 ∧
      ((∃ c, i = .jcn c 0x00#8 ∧ jcnTaken s c = true) ∨ ∃ r, i = .isz r 0x00#8 ∧ getReg s r ≠ 0xF#4))

theorem JumpsToZero.words {s : State} {i : Instr} (h : JumpsToZero s i) : i.words = 2 := by
  rcases h with rfl | rfl | ⟨-, ⟨c, rfl, -⟩ | ⟨r, rfl, -⟩⟩ <;> rfl

/-- The in-page target 0x00 is the address 0x000 where the page rule stays in bank 0 (R65, R92). -/
theorem inPageTarget_eq_zero {s : State} (h : s.pc.toNat < 255) : inPageTarget s 0x00#8 = 0x000#12 := by
  have hbank : pageRuleBank s = 0x0#4 := by
    apply BitVec.eq_of_toNat_eq
    rw [pageRuleBank_stays (by omega), Nat.div_eq_of_lt (by omega)]
    rfl
  rw [inPageTarget, hbank]
  rfl

/-- A jump to 0x000 commits 0xFFF (R93, D3). -/
theorem JumpsToZero.exec_pc {s : State} {i : Instr} (h : JumpsToZero s i) :
    ∃ u, exec i s = .next u ∧ u.pc = 0xFFF#12 := by
  rcases h with rfl | rfl | ⟨hbank, ⟨c, rfl, htaken⟩ | ⟨r, rfl, hF⟩⟩
  · exact ⟨_, exec_jun _ s, rfl⟩
  · exact ⟨_, exec_jms _ s, rfl⟩
  · exact ⟨_, by rw [exec_jcn, if_pos htaken, inPageTarget_eq_zero hbank], rfl⟩
  · exact ⟨_, by rw [exec_isz_of_jump _ hF, inPageTarget_eq_zero hbank], rfl⟩

/-- Settles O49: the completing decode commits 0xFFF, which is beyond every image but a full one; there the post-increment
goes round to 0x000. -/
theorem jumpToZeroEndsTheRunUnlessImageIsFull : Obligations.JumpToZeroEndsTheRunUnlessImageIsFull := by
  intro s i h hp hd hin hjump
  obtain ⟨hh, -, -⟩ := runsInside_of_ready h
  -- The first cycle moves `pc` on to the second word and writes no register and no flag.
  have hzero : JumpsToZero (fetched (firstWordDone s)) i := by
    rw [firstWordDone_of_inside h hin]
    exact hjump
  obtain ⟨u, hu, hpc⟩ := hzero.exec_pc
  obtain ⟨hhalted, hstage, hsize⟩ :
      u.halted = false ∧ u.stage = .execute ∧ u.romSizeBytes = s.romSizeBytes := by
    rw [exec_frame hu, firstWordDone_of_inside h hin]
    exact ⟨hh, rfl, rfl⟩
  rw [step_of_decode_wide h hp hd hzero.words hin, hu, andThen_next]
  refine ⟨_, rfl, fun hpart => ?_, fun hfull => ?_⟩
  · have hend : (clearWide u).romSizeBytes.val ≤ (clearWide u).pc.toNat := by
      rw [clearWide_romSizeBytes, clearWide_pc, hsize, hpc]
      exact hpart
    obtain ⟨hpc', hc, hs, hhalt⟩ := finished_ends hend
    exact ⟨hpc'.trans hpc, hc, hs.trans hstage, hhalt⟩
  · have hsize' : (clearWide u).romSizeBytes.val = 4096 := by rw [clearWide_romSizeBytes, hsize, hfull]
    have hnext : (clearWide u).pc + 1#12 = 0x000#12 := by rw [clearWide_pc, hpc]; rfl
    obtain ⟨hpc', hc, hhalt⟩ := finished_lands (d := clearWide u) hhalted (hsize' ▸ (clearWide u).pc.isLt)
    refine ⟨hpc'.trans hnext, hc, Bool.eq_false_iff.mpr fun ht => ?_⟩
    rw [hhalt, hsize', hnext] at ht
    exact absurd ht (by decide)

end Sys2Proof.Machine
end

section
/-! The states without a step (spec/93_implementation_defined.md U10; the refusal is the model's choice, log 4). -/

namespace Sys2Proof.Machine

/-- Where the stage disagrees with the cycle, the clock step of a running core does no stage work (U10). -/
theorem clockStep_of_disagreeing {s : State} (hh : s.halted = false) (ha : ¬ s.stageAgrees) :
    clockStep s = .refused .stageCycleMismatch := by
  unfold clockStep
  rw [if_neg (by simp [hh]), if_neg ha]

/-- A refusal of the first clock step is the answer of the whole step: no other clock step is taken. -/
theorem step_of_clockStep_refused {s : State} {r : Refusal} (h : clockStep s = .refused r) : step s = .refused r := by
  rw [step_eq, runToBoundary_succ, h, andThen_refused]

/-- Settles O33: the clock step is refused at once, and a step begins with a clock step. -/
theorem disagreeingStageHasNoStep : Obligations.DisagreeingStageHasNoStep := by
  intro s hh ha
  have hclock := clockStep_of_disagreeing hh ha
  exact ⟨hclock, step_of_clockStep_refused hclock⟩

end Sys2Proof.Machine
end
